-- ==== Sys2Proof/Word.lean ====
section
/-! DEFINITION. The word types of the PHA (spec/00_scope.md rules R11, R12, R14). -/

namespace Sys2Proof

/-- A 32-bit value: a pattern of 32 bits, with `+` and `*` modulo 2^32 (R12). -/
abbrev Word := BitVec 32

/-- An 8-bit input byte (R14). -/
abbrev Byte := BitVec 8

end Sys2Proof
end

