-- ==== Sys2Proof/Syntax.lean ====
section
/-! DEFINITION. The eleven commands of the PHA (spec/30_encoding.md rule R117), one constructor for each row of the
opcode table, with the operand fields of rule R111 as the bits they are. -/

namespace Sys2Proof

/-- A command with its field values. `a` is A (bits 9:8), `o` is O (11:10), `s` is S (13:12), `m` is M (11:8) and
`v` is V (10:8) (R111). The reserved values S = 3, V = 6 and V = 7 (R118) can be written here and are refused by
`Instr.wellFormed`. -/
inductive Instr where
  | nop
  | init
  | sfold
  | sfold8
  | vrpi
  | tail
  | vseed (a : BitVec 2)
  | vzero (a : BitVec 2)
  | vmac (a : BitVec 2) (o : BitVec 2) (s : BitVec 2)
  | hred (m : BitVec 4)
  | hash (v : BitVec 3)
  deriving DecidableEq, Repr

end Sys2Proof
end

