-- ==== Sys2Proof/WellFormed.lean ====
section
/-! DEFINITION. Which commands carry no reserved field value (spec/30_encoding.md rules R118, R123). -/

namespace Sys2Proof

/-- The extra condition of the command's row in R117: S is not 3 in VMAC, V is at most 5 in HASH, nothing otherwise. -/
def Instr.wellFormed : Instr → Bool
  | .nop => true
  | .init => true
  | .sfold => true
  | .sfold8 => true
  | .vrpi => true
  | .tail => true
  | .vseed _ => true
  | .vzero _ => true
  | .vmac _ _ s => s != 3
  | .hred _ => true
  | .hash v => decide (v.toNat ≤ 5)

/-- The command has no reserved field value. -/
abbrev Instr.WellFormed (i : Instr) : Prop := i.wellFormed = true

end Sys2Proof
end

