-- ==== Sys2Proof/Decode.lean ====
section
/-! DEFINITION. The decoder of command words, total on every 32-bit word, and the encoder
(spec/30_encoding.md rules R110-R123). -/

namespace Sys2Proof

/-- Why a word is ILLEGAL: the three cases of spec/60_exceptions.md rule R235. The hardware reports all three with the one
error code ILLEGAL; the names are the model's. -/
inductive Illegal where
  /-- an unassigned OPC value (R120) -/
  | unassignedOpcode
  /-- a 1 in a bit the command's format does not use (R119) -/
  | reservedBit
  /-- S = 3 in VMAC, V = 6 or 7 in HASH (R118) -/
  | reservedField
  deriving DecidableEq, Repr

/-- The rows of the opcode map, without their operands. -/
inductive Mnemonic where
  | nop | init | sfold | sfold8 | vrpi | tail | vseed | vzero | vmac | hred | hash
  deriving DecidableEq, Repr

/-- The OPC column of R117 read backwards: which row an OPC value selects, none for the unassigned values of R120. -/
def mnemonicOf (opc : BitVec 8) : Option Mnemonic :=
  match opc.toNat with
  | 0x00 => some .nop
  | 0x01 => some .init
  | 0x02 => some .sfold
  | 0x03 => some .sfold8
  | 0x04 => some .vrpi
  | 0x05 => some .tail
  | 0x08 => some .vseed
  | 0x09 => some .vzero
  | 0x10 => some .vmac
  | 0x18 => some .hred
  | 0x20 => some .hash
  | _ => none

/-- The match column of R117. -/
def matchWord : Mnemonic → Word
  | .nop => 0x00000000
  | .init => 0x00000001
  | .sfold => 0x00000002
  | .sfold8 => 0x00000003
  | .vrpi => 0x00000004
  | .tail => 0x00000005
  | .vseed => 0x00000008
  | .vzero => 0x00000009
  | .vmac => 0x00000010
  | .hred => 0x00000018
  | .hash => 0x00000020

/-- The mask column of R117. -/
def maskWord : Mnemonic → Word
  | .nop => 0xFFFFFFFF
  | .init => 0xFFFFFFFF
  | .sfold => 0xFFFFFFFF
  | .sfold8 => 0xFFFFFFFF
  | .vrpi => 0xFFFFFFFF
  | .tail => 0xFFFFFFFF
  | .vseed => 0xFFFFFCFF
  | .vzero => 0xFFFFFCFF
  | .vmac => 0xFFFFC0FF
  | .hred => 0xFFFFF0FF
  | .hash => 0xFFFFF8FF

/-- The operand fields of R111, taken out of the word once. -/
def operands (k : Mnemonic) (w : Word) : Instr :=
  match k with
  | .nop => .nop
  | .init => .init
  | .sfold => .sfold
  | .sfold8 => .sfold8
  | .vrpi => .vrpi
  | .tail => .tail
  | .vseed => .vseed (w.extractLsb' 8 2)
  | .vzero => .vzero (w.extractLsb' 8 2)
  | .vmac => .vmac (w.extractLsb' 8 2) (w.extractLsb' 10 2) (w.extractLsb' 12 2)
  | .hred => .hred (w.extractLsb' 8 4)
  | .hash => .hash (w.extractLsb' 8 3)

/-- `decode(w)` of R122: the row whose mask and match fit and whose extra condition holds, else ILLEGAL with the case of
R235 that applies. -/
def decode (w : Word) : Except Illegal Instr :=
  match mnemonicOf (w.extractLsb' 0 8) with
  | none => .error .unassignedOpcode
  | some k =>
    if w &&& maskWord k = matchWord k then
      if (operands k w).wellFormed then .ok (operands k w) else .error .reservedField
    else .error .reservedBit

/-- The row a command belongs to. -/
def Instr.mnemonic : Instr → Mnemonic
  | .nop => .nop
  | .init => .init
  | .sfold => .sfold
  | .sfold8 => .sfold8
  | .vrpi => .vrpi
  | .tail => .tail
  | .vseed _ => .vseed
  | .vzero _ => .vzero
  | .vmac _ _ _ => .vmac
  | .hred _ => .hred
  | .hash _ => .hash

/-- A field value at its place in the word (R111: zero-extended, then moved to its lowest bit). -/
def fieldAt {n : Nat} (lo : Nat) (v : BitVec n) : Word := v.zeroExtend 32 <<< lo

/-- The command word of R112-R116: the row's match word with the operand fields at their places. -/
def encode (i : Instr) : Word :=
  matchWord i.mnemonic |||
  match i with
  | .nop => 0
  | .init => 0
  | .sfold => 0
  | .sfold8 => 0
  | .vrpi => 0
  | .tail => 0
  | .vseed a => fieldAt 8 a
  | .vzero a => fieldAt 8 a
  | .vmac a o s => fieldAt 8 a ||| fieldAt 10 o ||| fieldAt 12 s
  | .hred m => fieldAt 8 m
  | .hash v => fieldAt 8 v

/-- What the decoder reads from the table's numbering of an instruction of `nbits` bits: bits from `nbits` up are 0, and
a command word has 32 bits (R110), so a number that needs more is no command. -/
def decodeTableWord (nbits w : Nat) : Option Instr :=
  if w % 2 ^ nbits < 2 ^ 32 then
    match decode (BitVec.ofNat 32 (w % 2 ^ nbits)) with
    | .ok i => some i
    | .error _ => none
  else none

end Sys2Proof
end

