-- ==== Sys2Proof/Config.lean ====
section
/-! DEFINITION. What a build or a platform fixes (spec/00_scope.md section 3), and the free values: constants with no body,
about which nothing can be proved. -/

namespace Sys2Proof

/-- The lane count W, a build parameter with the legal range 2..64 (R6). A W outside the range cannot be written, as
92_eei_decisions.md D4 asks. -/
structure LaneCount where
  val : Nat
  atLeast : 2 ≤ val
  atMost : val ≤ 64
  deriving DecidableEq, Repr

/-- A run of addresses `first .. first + size - 1` of the input memory. -/
structure Region where
  first : Nat
  size : Nat
  deriving DecidableEq, Repr

/-- What the build and the platform fix for a machine and no step changes: W (R6), the input addresses that answer a read
(`InputAdmit`, R15 and R81) and the place of the register window (`PHA_BASE`, R49). -/
structure Platform where
  lanes : LaneCount
  admitted : List Region
  phaBase : Nat
  deriving DecidableEq, Repr

/-- The default build: W = 8 (R6). DESIGN CHOICE (log entries 3 and 4): every input address is admitted and the window sits
at host address 0; the spec leaves both OPEN (D6, D7). -/
def Platform.default : Platform :=
  { lanes := ⟨8, by decide, by decide⟩, admitted := [⟨0, 2 ^ 32⟩], phaBase := 0 }

/-- FREE VALUE: the n-th unspecified 32-bit value the machine draws (93_implementation_defined.md rows 7, 8 and 10; log
entry 6). -/
opaque Config.draw : Nat → Word

/-- FREE VALUE: the byte at an input-memory address where nothing has been placed. The spec takes the input memory as a
parameter, a function from address to byte (R31; log entry 5). -/
opaque Config.unplacedByte : Word → Byte

end Sys2Proof
end

