-- ==== Sys2Proof/Machine/Operands.lean ====
section
/-! DEFINITION. Sign extension and finite sums, which input addresses are admitted, lanes, the coefficient ROM, and what the
operand fields of a command select (spec/00_scope.md R14-R17, R19; spec/10_state.md R44-R46; spec/30_encoding.md R111,
R123). -/

namespace Sys2Proof

/-- The platform's predicate `InputAdmit` (R15). -/
def Platform.admits (p : Platform) (a : Word) : Bool :=
  p.admitted.any fun r => decide (r.first ≤ a.toNat) && decide (a.toNat < r.first + r.size)

end Sys2Proof

namespace Sys2Proof.Machine

/-- `sext_32(b)`: 24 copies of `b[7]`, then `b[7:0]` (R14). -/
def sext32 (b : Byte) : Word := b.signExtend 32

/-- `f 0 + f 1 + … + f (n - 1)` modulo 2^32, the `Σ` of R19. -/
def sumTo (f : Nat → Word) : Nat → Word
  | 0 => 0
  | n + 1 => sumTo f n + f n

/-- An accumulator vector: its lanes, lane 0 first. -/
abbrev LaneVec := List Word

/-- Lane `j` of a vector. -/
def lane (v : LaneVec) (j : Nat) : Word := v.getD j 0

/-- The vector of `w` lanes whose lane `j` is `f j`. -/
def lanesOf (w : Nat) (f : Nat → Word) : LaneVec := (List.range w).map f

/-- `e0`: lane 0 is 1 and every other lane is 0 (R16). -/
def seedVec (w : Nat) : LaneVec := lanesOf w fun j => if j = 0 then 1 else 0

/-- `zero`: every lane is 0 (R16). -/
def zeroVec (w : Nat) : LaneVec := lanesOf w fun _ => 0

/-- The vector with lane `j` replaced by `x`. -/
def setLane (w : Nat) (v : LaneVec) (j : Nat) (x : Word) : LaneVec :=
  lanesOf w fun k => if k = j then x else lane v k

/-- `hsum(v)`: the sum of the `w` lanes modulo 2^32 (R17). -/
def hsum (w : Nat) (v : LaneVec) : Word := sumTo (lane v) w

/-- `POW[k]`: 31^k modulo 2^32, by the ROM's own invariants POW[0] = 1 and POW[k] = 31 * POW[k-1] (R44). -/
def pow31 : Nat → Word
  | 0 => 1
  | k + 1 => 31 * pow31 k

/-- The number of blocks a step selector advances by: S = 0, 1, 2 select 1, 2, 4 (R45, R111). S = 3 is reserved (R118). -/
inductive StepSel where
  | one | two | four
  deriving DecidableEq, Repr

/-- The step selector a field S names; none for the reserved S = 3 (R45). -/
def stepOfField (s : BitVec 2) : Option StepSel :=
  match s.toNat with
  | 0 => some .one
  | 1 => some .two
  | 2 => some .four
  | _ => none

/-- How many vector-widths the step constant advances by (R45). -/
def StepSel.blocks : StepSel → Nat
  | .one => 1
  | .two => 2
  | .four => 4

/-- `STEP(s)`: POW[W], POW[2W] or POW[4W] (R45). -/
def stepConst (w : Nat) (k : StepSel) : Word := pow31 (k.blocks * w)

/-- `WT(o)[j]`: POW[4W - 1 - o*W - j] (R46). -/
def weightLane (w : Nat) (o : Fin 4) (j : Nat) : Word := pow31 (4 * w - 1 - o.val * w - j)

/-- The accumulator a field A names, or the weight vector a field O names: every value 0..3 is legal (R123). -/
def indexOfField (a : BitVec 2) : Fin 4 := a.toFin

/-- Bit `a` of the mask M selects ACC[a] (R111). -/
def maskHas (m : BitVec 4) (a : Nat) : Bool := m.getLsbD a

/-- The six variants of HASH (spec/43_hash.md R201-R206; 90_conflicts.md C2). -/
inductive Variant where
  | scalar | unrolled | rpi | deferred | dual | quad
  deriving DecidableEq, Repr

/-- The variant a field V names; none for the reserved V = 6 and V = 7 (R111, R118). -/
def variantOfField (v : BitVec 3) : Option Variant :=
  match v.toNat with
  | 0 => some .scalar
  | 1 => some .unrolled
  | 2 => some .rpi
  | 3 => some .deferred
  | 4 => some .dual
  | 5 => some .quad
  | _ => none

end Sys2Proof.Machine
end

