-- ==== Sys2Proof/Machine/State.lean ====
section
/-! DEFINITION. The state of the PHA (spec/10_state.md), the events that drive it, the reasons a step can stop, and the
state after reset (spec/70_reset_and_hazards.md rule R260). -/

namespace Sys2Proof.Machine

/-- The error codes 0 to 4 of STATUS.ERRCODE (spec/60_exceptions.md R231); codes 5 to 15 are never produced. -/
inductive ErrCode where
  | none | illegal | range | busy | busErr
  deriving DecidableEq, Repr

/-- The fields of STATUS that are not reserved (R39). -/
structure Status where
  busy : Bool
  done : Bool
  err : Bool
  code : ErrCode
  deriving DecidableEq, Repr

/-- The width of a host access to the register window (R87). -/
inductive AccessSize where
  | byte | halfword | word
  deriving DecidableEq, Repr

/-- What a host access does: RegRead, or RegWrite of a value (R89, R90). -/
inductive AccessKind where
  | read
  | write (v : Word)
  deriving DecidableEq, Repr

/-- One host access at a host address (R87: a register sits at PHA_BASE + off). -/
structure HostAccess where
  size : AccessSize
  addr : Nat
  kind : AccessKind
  deriving DecidableEq, Repr

/-- What happens next: the engine's turn, a host access (R30), a byte of the input memory changing at the PHA's read port
(R31, R98), or the reset signal (R260). -/
inductive Event where
  | engine
  | host (a : HostAccess)
  | memory (addr : Word) (b : Byte)
  | reset
  deriving DecidableEq, Repr

/-- A run of `count` input-memory addresses from `first` on, wrapping modulo 2^32 (R82). -/
structure InputRange where
  first : Word
  count : Nat
  deriving DecidableEq, Repr

/-- Which of H, POS and the accumulator lanes hold values that come from a performed command: a flag for H, one for POS and
one for each lane (log entry 8). -/
structure Marks where
  h : Bool
  pos : Bool
  acc : Vector (List Bool) 4
  deriving DecidableEq, Repr

/-- The input bytes a performed command read, and the registers whose values still come from that command. -/
structure InputUse where
  range : InputRange
  marks : Marks
  deriving DecidableEq, Repr

/-- The machine. `platform` to `input` are the spec's; `schedule`, `readData`, `reading`, `uses`, `breached` and `draws` are
the model's own (log entries 1, 9, 7, 8, 7 and 6). -/
structure State where
  /-- W, InputAdmit and PHA_BASE: constant (R6, R15, R49). -/
  platform : Platform
  /-- H (R33). -/
  h : Word
  /-- ACC[0..3], W lanes each (R34). -/
  acc : Vector LaneVec 4
  /-- POS (R35). -/
  pos : Word
  /-- LEN (R36). -/
  len : Word
  /-- BASE (R37). -/
  base : Word
  /-- CTRL.IE; the other bits of CTRL read 0 and ignore writes (R38). -/
  ie : Bool
  /-- STATUS (R39). -/
  status : Status
  /-- PENDING: the accepted command word the engine has not yet performed (R42). -/
  pending : Option Word
  /-- The placed bytes of the input memory, addresses strictly rising (R31, R81). -/
  input : List Host.Cell
  /-- The events still to come, the next one first. When it is empty the engine takes its turn. -/
  schedule : List Event
  /-- The data the last host read returned; none before the first read. -/
  readData : Option Word
  /-- The input bytes the pending command reads: no agent may write them from its acceptance on (R97). -/
  reading : List InputRange
  /-- The input bytes of the commands performed since the host last observed BUSY = 0: no agent may write them until it does
  (R97). -/
  uses : List InputUse
  /-- A byte the pending command reads has changed since its acceptance. -/
  breached : Bool
  /-- How many free values have been drawn: the next one is `Config.draw draws`. -/
  draws : Nat
  deriving DecidableEq, Repr

/-- Why the machine stops with a fault. -/
inductive Fault where
  /-- Raised by the engine when PENDING holds a word that decodes to ILLEGAL, and by the meanings of VMAC and HASH on a
  reserved field value. Acceptance keeps such a word out of PENDING (R234, R235; 93_implementation_defined.md row 20), so
  no run reaches it. Safe. -/
  | reservedEncoding
  deriving DecidableEq, Repr

/-- Why the model has no transition. -/
inductive Refusal where
  /-- Raised by an arm of `exec` for an instruction with no meaning; no arm does. Safe. -/
  | notModelled (mnemonic : String)
  /-- Raised by a byte or halfword access to the window: "a model refuses such an access" (R87, D9). Safe. -/
  | subWordAccess
  /-- Raised by a word access to the window whose offset is not a multiple of 4 (R87, D9). Safe. -/
  | misalignedAccess
  /-- Raised by a host access outside the 4 KiB window: it is not an access to the PHA (R49, R105). Safe. -/
  | outsideWindow
  deriving DecidableEq, Repr

/-- The machine right after reset, in the default build (R260). -/
def State.reset : State :=
  { platform := .default
    h := 1
    acc := #v[seedVec 8, zeroVec 8, zeroVec 8, zeroVec 8]
    pos := 0
    len := 0
    base := 0
    ie := false
    status := { busy := false, done := false, err := false, code := .none }
    pending := none
    input := []
    schedule := []
    readData := none
    reading := []
    uses := []
    breached := false
    draws := 0 }

end Sys2Proof.Machine
end

