-- ==== Sys2Proof/Machine/Flags.lean ====
section
/-! DEFINITION. STATUS, CTRL and PARAM as the words a host reads, the write-1-to-clear rule of STATUS, the error flag and
the interrupt output (spec/10_state.md R38-R40, R43; spec/60_exceptions.md R231, R233, R239). -/

namespace Sys2Proof.Machine

/-- The number of an error code (R231). -/
def ErrCode.toNat : ErrCode → Nat
  | .none => 0
  | .illegal => 1
  | .range => 2
  | .busy => 3
  | .busErr => 4

/-- STATUS as a host reads it: BUSY at bit 0, DONE at 1, ERR at 2, ERRCODE at 7:4, the other bits 0 (R39). -/
def statusWord (t : Status) : Word :=
  BitVec.ofNat 32 (t.busy.toNat + 2 * t.done.toNat + 4 * t.err.toNat + 16 * t.code.toNat)

/-- CTRL as a host reads it: IE at bit 0, the other bits 0 (R38). -/
def ctrlWord (ie : Bool) : Word := BitVec.ofNat 32 ie.toNat

/-- PARAM: LANES = W at 7:0, NACC = 4 at 15:8, BASE31 = 31 at 23:16 (R40). -/
def paramWord (w : Nat) : Word := BitVec.ofNat 32 (w + 256 * 4 + 65536 * 31)

/-- A host write of `v` to STATUS: bit 1 clears DONE, bit 2 clears ERR and ERRCODE together, nothing else changes (R39). -/
def clearStatus (v : Word) (t : Status) : Status :=
  { t with
    done := t.done && !v.getLsbD 1
    err := t.err && !v.getLsbD 2
    code := if v.getLsbD 2 then .none else t.code }

/-- `raise E(code)`: only the first error since ERR was last clear is recorded (R233). -/
def raiseStatus (c : ErrCode) (t : Status) : Status :=
  if t.err then t else { t with err := true, code := c }

/-- The interrupt output `irq = CTRL.IE and (STATUS.DONE or STATUS.ERR)` (R43, R239). -/
def State.irq (s : State) : Bool := s.ie && (s.status.done || s.status.err)

end Sys2Proof.Machine
end

