-- ==== Sys2Proof/Machine/Ops.lean ====
section
/-! DEFINITION. The named operations every meaning is built from: the input memory and its bytes, accumulators, raising an
error, completing and aborting a command, acceptance, the duty to keep the input unchanged, the reset signal and the choice
of the next step. -/

namespace Sys2Proof.Machine

/-! ### The input memory (spec/20_memory.md R80-R86) -/

/-- The placed byte at an address; none where nothing has been placed. -/
def readCell (m : List Host.Cell) (a : Nat) : Option Byte :=
  match m with
  | [] => none
  | c :: rest => if c.1 = a then some c.2 else readCell rest a

/-- Places byte `b` at address `a`, keeping the addresses strictly rising. -/
def writeCell (m : List Host.Cell) (a : Nat) (b : Byte) : List Host.Cell :=
  match m with
  | [] => [(a, b)]
  | c :: rest =>
    if a < c.1 then (a, b) :: c :: rest
    else if a = c.1 then (a, b) :: rest
    else c :: writeCell rest a b

/-- The canonical form of the input memory: addresses strictly rising and inside the 32-bit address space. An unlisted
address reads as no placed byte, so no entry equals what an unlisted address reads as. -/
abbrev Memory.wf (m : List Host.Cell) : Prop :=
  m.Pairwise (fun c d => c.1 < d.1) ∧ ∀ c ∈ m, c.1 < 2 ^ 32

/-- W. -/
def State.w (s : State) : Nat := s.platform.lanes.val

/-- The byte at an input-memory address: the placed one, else the parameter's (R31, R81). -/
def State.byteAt (s : State) (a : Word) : Byte :=
  match readCell s.input a.toNat with
  | some b => b
  | none => Config.unplacedByte a

/-- `EA(i) = (BASE + i) mod 2^32` (R82). -/
def State.ea (s : State) (i : Nat) : Word := s.base + BitVec.ofNat 32 i

/-- `InputByte(i) = sext_32(MemRead(EA(i), 1))` (R84), for an admitted address. -/
def State.inputByte (s : State) (i : Nat) : Word := sext32 (s.byteAt (s.ea i))

/-- `LoadBlock(p)`: lane `j` is `InputByte(p + j)` (R85). -/
def State.loadBlock (s : State) (p : Nat) : LaneVec := lanesOf s.w fun j => s.inputByte (p + j)

/-- Every `EA(i)` for `lo ≤ i < lo + n` is admitted (R15, R236). -/
def State.admitsBytes (s : State) (lo : Nat) : Nat → Bool
  | 0 => true
  | n + 1 => s.admitsBytes lo n && s.platform.admits (s.ea (lo + n))

/-! ### Registers -/

/-- `H <- v` (R33). -/
def State.setH (s : State) (v : Word) : State := { s with h := v }

/-- ACC[a] (R34). -/
def State.accOf (s : State) (a : Fin 4) : LaneVec := s.acc[a.val]

/-- `ACC[a] <- v` (R34). -/
def State.setAcc (s : State) (a : Fin 4) (v : LaneVec) : State :=
  { s with acc := s.acc.set a.val v a.isLt }

/-- `POS <- POS + n`. -/
def State.advance (s : State) (n : Nat) : State := { s with pos := s.pos + BitVec.ofNat 32 n }

/-- `raise E(code)` (spec/60_exceptions.md R233). -/
def raise (c : ErrCode) (s : State) : State := { s with status := raiseStatus c s.status }

/-- H, POS and every lane of ACC[0..3] take unspecified values, one draw for each register
(R97, R236; 93_implementation_defined.md rows 8 and 10; log entry 6). -/
def redraw (s : State) : State :=
  { s with
    h := Config.draw s.draws
    pos := Config.draw (s.draws + 1)
    acc := Vector.ofFn fun a : Fin 4 =>
      lanesOf s.w fun j => Config.draw (s.draws + 2 + a.val * s.w + j)
    draws := s.draws + 2 + 4 * s.w }

/-! ### What comes from which input bytes (spec/20_memory.md R97; log entries 7 and 8) -/

/-- The address lies in the range, counted from its first address modulo 2^32 (R82). -/
def InputRange.has (r : InputRange) (a : Word) : Bool := decide ((a - r.first).toNat < r.count)

/-- H, POS and every lane come from the command: what R97 says of the values after it. -/
def Marks.all (w : Nat) : Marks :=
  { h := true, pos := true, acc := Vector.replicate 4 (List.replicate w true) }

/-- No register comes from the command. -/
def Marks.none : Marks := { h := false, pos := false, acc := Vector.replicate 4 [] }

/-- The flag of lane `j` of ACC[a]. -/
def Marks.lane (m : Marks) (a : Fin 4) (j : Nat) : Bool := m.acc[a.val].getD j false

/-- Some lane of ACC[a] comes from the command. -/
def Marks.someLane (m : Marks) (a : Fin 4) : Bool := m.acc[a.val].any id

/-- Some register comes from the command. -/
def Marks.any (m : Marks) : Bool := m.h || m.pos || (List.finRange 4).any m.someLane

/-- H has been written with a value of its own. -/
def Marks.dropH (m : Marks) : Marks := { m with h := false }

/-- POS has been written with a value of its own. -/
def Marks.dropPos (m : Marks) : Marks := { m with pos := false }

/-- Every lane of ACC[a] comes from the command, or none does. -/
def Marks.setAcc (m : Marks) (a : Fin 4) (flags : List Bool) : Marks := { m with acc := m.acc.set a.val flags a.isLt }

/-- Lane `j` of ACC[a] has been written with a value of its own. -/
def Marks.dropLane (m : Marks) (a : Fin 4) (j : Nat) : Marks := m.setAcc a (m.acc[a.val].set j false)

/-- H is computed from its old value and from bytes found at POS (R160, R162, R164, R180). -/
def Marks.foldH (m : Marks) : Marks := { m with h := m.h || m.pos }

/-- What still comes from an earlier command after command `i` on a machine of `w` lanes: a register `i` computes from
marked ones is marked, and one it seeds is not. INIT and HASH seed H, POS and every accumulator (R141, R200), so they
depend on no earlier command (R210); TAIL leaves POS at LEN (R165). -/
def carry (w : Nat) (i : Instr) (m : Marks) : Marks :=
  match i with
  | .nop => m
  | .init => .none
  | .sfold => m.foldH
  | .sfold8 => m.foldH
  | .vrpi => m.foldH
  | .tail => m.foldH.dropPos
  | .vseed a => m.setAcc (indexOfField a) []
  | .vzero a => m.setAcc (indexOfField a) []
  | .vmac a _ _ => if m.pos then m.setAcc (indexOfField a) (List.replicate w true) else m
  | .hred k => { m with h := (List.finRange 4).any fun a => maskHas k a.val && m.someLane a }
  | .hash _ => .none

/-- Marks every use again by `f`, and forgets a use from which nothing comes any more. -/
def State.remark (f : Marks → Marks) (s : State) : State :=
  { s with uses := (s.uses.map fun u => { u with marks := f u.marks }).filter fun u => u.marks.any }

/-- Command `i` has been performed: what came from earlier commands follows `carry`, and everything comes from `i` if the
bytes it read change before the host observes BUSY = 0 (R97). -/
def retire (i : Instr) (s : State) : State :=
  { s with
    reading := []
    uses := (s.reading.map fun r => ⟨r, .all s.w⟩) ++ (s.remark (carry s.w i)).uses }

/-! ### The engine's step (spec/10_state.md R42) -/

/-- The completion update: PENDING <- none, BUSY <- 0, DONE <- 1 (R42). If the input changed while it was in use, H, POS
and ACC are then unspecified and no error is raised (R97, R271). -/
def complete (i : Instr) (s : State) : State :=
  let t := { retire i s with
    pending := none
    breached := false
    status := { s.status with busy := false, done := true } }
  if s.breached then redraw t else t

/-- The BUSERR abort: raise BUSERR(4), PENDING <- none, BUSY <- 0, DONE as it is, and H, POS and ACC unspecified
(spec/60_exceptions.md R236). -/
def busAbort (i : Instr) (s : State) : State :=
  redraw { retire i s with
    pending := none
    breached := false
    status := { raiseStatus .busErr s.status with busy := false } }

/-- A command that reads no input: its body, then completion. -/
def runPlain (i : Instr) (body : State → State) (s : State) : Host.Outcome State Fault Refusal :=
  .next (complete i (body s))

/-- A command that reads input bytes `lo .. lo + n - 1`: if one of them is not admitted it aborts (in whatever order the
engine reads, R84, R236), else its body, then completion. -/
def runReading (i : Instr) (lo n : Nat) (body : State → State) (s : State) : Host.Outcome State Fault Refusal :=
  if s.admitsBytes lo n then .next (complete i (body s)) else .next (busAbort i s)

/-- `while POS + n <= LEN: step`, with at most `fuel` passes. -/
def whileFits (n : Nat) (step : State → State) : Nat → State → State
  | 0, s => s
  | fuel + 1, s => if s.pos.toNat + n ≤ s.len.toNat then whileFits n step fuel (step s) else s

/-- `while POS + n <= LEN: step` for a step that advances POS: LEN - POS passes are enough. -/
def loopFits (n : Nat) (step : State → State) (s : State) : State :=
  whileFits n step (s.len.toNat - s.pos.toNat) s

/-! ### Acceptance (spec/60_exceptions.md R234, R237) -/

/-- The byte count n of the RANGE check; none for a command that has no range check (R237). -/
def byteCount (w : Nat) : Instr → Option Nat
  | .nop => none
  | .init => none
  | .sfold => some 1
  | .sfold8 => some 8
  | .vrpi => some w
  | .tail => some 0
  | .vseed _ => none
  | .vzero _ => none
  | .vmac _ _ _ => some w
  | .hred _ => none
  | .hash _ => none

/-- The RANGE check `POS + n <= LEN` on unbounded integers (R237). -/
def rangeOk (s : State) (i : Instr) : Bool :=
  match byteCount s.w i with
  | none => true
  | some n => decide (s.pos.toNat + n ≤ s.len.toNat)

/-- The input bytes the duty of R97 protects for an accepted command: bytes 0..LEN-1 for HASH, POS..LEN-1 for the other
commands that read input. DEDUCED (log entry 7): a command that reads no input byte protects none. -/
def protects (s : State) : Instr → List InputRange
  | .nop => []
  | .init => []
  | .sfold => [⟨s.ea s.pos.toNat, s.len.toNat - s.pos.toNat⟩]
  | .sfold8 => [⟨s.ea s.pos.toNat, s.len.toNat - s.pos.toNat⟩]
  | .vrpi => [⟨s.ea s.pos.toNat, s.len.toNat - s.pos.toNat⟩]
  | .tail => [⟨s.ea s.pos.toNat, s.len.toNat - s.pos.toNat⟩]
  | .vseed _ => []
  | .vzero _ => []
  | .vmac _ _ _ => [⟨s.ea s.pos.toNat, s.len.toNat - s.pos.toNat⟩]
  | .hred _ => []
  | .hash _ => [⟨s.ea 0, s.len.toNat⟩]

/-- Acceptance of command word `w`: PENDING <- w, BUSY <- 1, DONE <- 0 (R42, R94, R234), and the input it reads is in
use from here on (R97). -/
def accept (w : Word) (i : Instr) (s : State) : State :=
  { s with
    pending := some w
    status := { s.status with busy := true, done := false }
    reading := protects s i }

/-- A host write of `w` to CMD: the checks of R234 in their order, then acceptance. -/
def submit (w : Word) (s : State) : State :=
  if s.status.busy then raise .busy s
  else
    match decode w with
    | .error _ => raise .illegal s
    | .ok i => if rangeOk s i then accept w i s else raise .range s

/-! ### The input memory changes, and the reset signal -/

/-- A performed and not yet observed command read the byte at `a`, and `f` holds of what still comes from it. -/
def State.spoils (s : State) (a : Word) (f : Marks → Bool) : Bool :=
  s.uses.any fun u => u.range.has a && f u.marks

/-- The greatest POS with which the pending command passes its RANGE check; none if it has no such check (R237). -/
def posLimit (s : State) : Option Nat :=
  match s.pending with
  | none => none
  | some w =>
    match decode w with
    | .error _ => none
    | .ok i => (byteCount s.w i).map fun n => s.len.toNat - n

/-- An unspecified POS: any value, or any value with which the pending command was accepted (log entry 8). -/
def drawPos (s : State) : Word :=
  match posLimit s with
  | none => Config.draw (s.draws + 1)
  | some m => BitVec.ofNat 32 ((Config.draw (s.draws + 1)).toNat % (m + 1))

/-- The byte at `a` has changed: what comes from the performed commands that read it is unspecified (R97), and what does not
come from them is as it was. With POS unspecified the pending command may read any byte of the buffer. -/
def spoil (a : Word) (s : State) : State :=
  if s.spoils a Marks.any then
    { s with
      h := if s.spoils a Marks.h then Config.draw s.draws else s.h
      pos := if s.spoils a Marks.pos then drawPos s else s.pos
      acc := Vector.ofFn fun k : Fin 4 => lanesOf s.w fun j =>
        if s.spoils a fun m => m.lane k j then Config.draw (s.draws + 2 + k.val * s.w + j) else lane (s.accOf k) j
      reading := if s.spoils a Marks.pos then s.reading.map fun _ => ⟨s.ea 0, s.len.toNat⟩ else s.reading
      draws := s.draws + 2 + 4 * s.w }
  else s

/-- The byte at `a` changes at the PHA's read port (R98). If the pending command reads it, the duty of R97 is broken for
that command: H, POS and ACC are unspecified at its completion. If a performed command read it and the host has not yet
observed BUSY = 0, what still comes from that command is unspecified now (log entries 7 and 8). -/
def storeByte (a : Word) (b : Byte) (s : State) : State :=
  let t := spoil a { s with input := writeCell s.input a.toNat b }
  if s.reading.any (fun r => r.has a) then { t with breached := true } else t

/-- `H <- 1; ACC[0] <- e0; ACC[1..3] <- zero; POS <- 0`: INIT's seeding (spec/40_setup.md R141), HASH's prologue
(spec/43_hash.md R200) and the reset values of these registers (R260). -/
def seedAll (s : State) : State :=
  { s with
    h := 1
    acc := #v[seedVec s.w, zeroVec s.w, zeroVec s.w, zeroVec s.w]
    pos := 0 }

/-- The reset signal (spec/70_reset_and_hazards.md R260): every register takes its reset value, PENDING is none, and a
command in progress is abandoned. The input memory and the build stay; so do the events still to come. -/
def resetSignal (s : State) : State :=
  { seedAll s with
    len := 0
    base := 0
    ie := false
    status := { busy := false, done := false, err := false, code := .none }
    pending := none
    reading := []
    uses := []
    breached := false }

/-! ### What happens next -/

/-- The next step of the machine, with the event taken off the schedule. -/
inductive Turn where
  | idle (s : State)
  | engine (w : Word) (s : State)
  | host (a : HostAccess) (s : State)
  | memory (a : Word) (b : Byte) (s : State)
  | reset (s : State)

/-- The engine's turn: enabled exactly when PENDING is not none (R42); otherwise nothing happens (R250). -/
def engineTurn (s : State) : Turn :=
  match s.pending with
  | none => .idle s
  | some w => .engine w s

/-- The head of the schedule; with no event left, the engine (R275: an enabled engine step is eventually taken). -/
def nextTurn (s : State) : Turn :=
  match s.schedule with
  | [] => engineTurn s
  | .engine :: rest => engineTurn { s with schedule := rest }
  | .host a :: rest => .host a { s with schedule := rest }
  | .memory a b :: rest => .memory a b { s with schedule := rest }
  | .reset :: rest => .reset { s with schedule := rest }

/-- PENDING holds `w` as if it had just been accepted, and the engine moves next (log entry 14). -/
def placePending (w : Word) (s : State) : State :=
  { s with
    pending := some w
    status := { s.status with busy := true, done := false }
    schedule := .engine :: s.schedule }

end Sys2Proof.Machine
end

