-- ==== Sys2Proof/Machine/Lane.lean ====
section
/-! DEFINITION. The lane commands VRPI, VMAC and HRED (spec/42_vector.md R180-R184). -/

namespace Sys2Proof.Machine

/-- `partial`: the sum of `v[j] * WT(3)[j]` over the block `v` at POS (R180). -/
def blockPartial (s : State) : Word :=
  let v := s.loadBlock s.pos.toNat
  sumTo (fun j => lane v j * weightLane s.w 3 j) s.w

/-- `H <- H * POW[W] + partial; POS <- POS + W` (R180). -/
def vrpiStep (s : State) : State :=
  (s.setH (s.h * pow31 s.w + blockPartial s)).advance s.w

/-- VRPI reads the block at POS (R180). -/
def execVrpi (s : State) : Host.Outcome State Fault Refusal :=
  runReading .vrpi s.pos.toNat s.w vrpiStep s

/-- The lanes `ACC[A][j] * STEP(S) + v[j] * WT(O)[j]` for the block `v` at POS (R182). -/
def vmacLanes (a o : Fin 4) (k : StepSel) (s : State) : LaneVec :=
  let v := s.loadBlock s.pos.toNat
  let c := stepConst s.w k
  lanesOf s.w fun j => lane (s.accOf a) j * c + lane v j * weightLane s.w o j

/-- `ACC[A][j] <- ACC[A][j] * STEP(S) + v[j] * WT(O)[j]` in every lane; `POS <- POS + W` (R182). -/
def vmacStep (a o : Fin 4) (k : StepSel) (s : State) : State :=
  (s.setAcc a (vmacLanes a o k s)).advance s.w

/-- VMAC reads the block at POS (R182). The reserved S = 3 never reaches the engine (R118, R235; log entry 11). -/
def execVmac (a o st : BitVec 2) (s : State) : Host.Outcome State Fault Refusal :=
  match stepOfField st with
  | none => .fault .reservedEncoding
  | some k => runReading (.vmac a o st) s.pos.toNat s.w (vmacStep (indexOfField a) (indexOfField o) k) s

/-- The sum of the selected accumulators' lanes: `t <- 0; for a in 0..3: if M[a] = 1: t <- t + hsum(ACC[a])` (R184). -/
def maskedSum (m : BitVec 4) (s : State) : Word :=
  let pick := fun (a : Fin 4) => if maskHas m a.val then hsum s.w (s.accOf a) else 0
  0 + pick 0 + pick 1 + pick 2 + pick 3

/-- `H <- t` (R184). -/
def hredStep (m : BitVec 4) (s : State) : State := s.setH (maskedSum m s)

/-- HRED reads no input (R184). -/
def execHred (m : BitVec 4) (s : State) : Host.Outcome State Fault Refusal :=
  runPlain (.hred m) (hredStep m) s

end Sys2Proof.Machine
end

