-- ==== Sys2Proof/Machine/Scalar.lean ====
section
/-! DEFINITION. The scalar folds SFOLD, SFOLD8 and TAIL (spec/41_scalar.md R160-R165). -/

namespace Sys2Proof.Machine

/-- `H <- POW[1] * H + InputByte(POS); POS <- POS + 1` (R160). -/
def sfoldStep (s : State) : State :=
  (s.setH (pow31 1 * s.h + s.inputByte s.pos.toNat)).advance 1

/-- SFOLD reads the byte at POS (R160). -/
def execSfold (s : State) : Host.Outcome State Fault Refusal :=
  runReading .sfold s.pos.toNat 1 sfoldStep s

/-- `H * POW[8] + b[0]*POW[7] + … + b[7]*POW[0]` for the eight bytes from POS (R162). -/
def chunkFold (s : State) : Word :=
  let b := fun k => s.inputByte (s.pos.toNat + k)
  s.h * pow31 8 + b 0 * pow31 7 + b 1 * pow31 6 + b 2 * pow31 5 + b 3 * pow31 4
    + b 4 * pow31 3 + b 5 * pow31 2 + b 6 * pow31 1 + b 7 * pow31 0

/-- `H <- H * POW[8] + b[0]*POW[7] + … + b[7]*POW[0]; POS <- POS + 8` (R162). -/
def sfold8Step (s : State) : State := (s.setH (chunkFold s)).advance 8

/-- SFOLD8 reads the eight bytes from POS (R162). -/
def execSfold8 (s : State) : Host.Outcome State Fault Refusal :=
  runReading .sfold8 s.pos.toNat 8 sfold8Step s

/-- `while POS < LEN: H <- POW[1] * H + InputByte(POS); POS <- POS + 1` (R164). -/
def tailStep (s : State) : State := loopFits 1 sfoldStep s

/-- TAIL reads bytes POS..LEN-1 (R164). -/
def execTail (s : State) : Host.Outcome State Fault Refusal :=
  runReading .tail s.pos.toNat (s.len.toNat - s.pos.toNat) tailStep s

end Sys2Proof.Machine
end

