-- ==== Sys2Proof/Machine/Hash.lean ====
section
/-! DEFINITION. The whole-hash command HASH and its six variant bodies (spec/43_hash.md R200-R206). -/

namespace Sys2Proof.Machine

/-- One macro-block of the dual variant: bytes POS..POS+W-1 into ACC[0] with WT(2), the next W into ACC[1] with WT(3),
both with STEP(1) (R205). -/
def dualBlock (s : State) : State := vmacStep 1 3 .two (vmacStep 0 2 .two s)

/-- One macro-block of the quad variant: quarter q into ACC[q] with WT(q) and STEP(2), q = 0..3 (R206). -/
def quadBlock (s : State) : State :=
  vmacStep 3 3 .four (vmacStep 2 2 .four (vmacStep 1 1 .four (vmacStep 0 0 .four s)))

/-- The body of each variant, run from the seeded state (R201-R206). -/
def variantBody (v : Variant) (s : State) : State :=
  match v with
  | .scalar => tailStep s
  | .unrolled => tailStep (loopFits 8 sfold8Step s)
  | .rpi => tailStep (loopFits s.w vrpiStep s)
  | .deferred => tailStep (hredStep 0b0001 (loopFits s.w (vmacStep 0 3 .one) s))
  | .dual => tailStep (hredStep 0b0011 (loopFits (2 * s.w) dualBlock s))
  | .quad => tailStep (hredStep 0b1111 (loopFits (4 * s.w) quadBlock s))

/-- HASH: the prologue seeds as INIT does, then the variant's body (R200). -/
def hashStep (v : Variant) (s : State) : State := variantBody v (seedAll s)

/-- HASH reads bytes 0..LEN-1 (R200). The reserved V = 6 and V = 7 never reach the engine (R118, R235; log entry 11). -/
def execHash (v : BitVec 3) (s : State) : Host.Outcome State Fault Refusal :=
  match variantOfField v with
  | none => .fault .reservedEncoding
  | some k => runReading (.hash v) 0 s.len.toNat (hashStep k) s

end Sys2Proof.Machine
end

