-- ==== Sys2Proof/Machine/Setup.lean ====
section
/-! DEFINITION. The setup commands NOP, INIT, VSEED and VZERO (spec/40_setup.md R140-R143). -/

namespace Sys2Proof.Machine

/-- NOP: no data effect, only completion (R140). -/
def execNop (s : State) : Host.Outcome State Fault Refusal := runPlain .nop id s

/-- INIT seeds H, every accumulator and POS; BASE and LEN stay (R141). -/
def execInit (s : State) : Host.Outcome State Fault Refusal := runPlain .init seedAll s

/-- `ACC[A] <- e0` (R142). -/
def vseedStep (a : Fin 4) (s : State) : State := s.setAcc a (seedVec s.w)

/-- VSEED (R142). -/
def execVseed (a : BitVec 2) (s : State) : Host.Outcome State Fault Refusal :=
  runPlain (.vseed a) (vseedStep (indexOfField a)) s

/-- `ACC[A] <- zero` (R143). -/
def vzeroStep (a : Fin 4) (s : State) : State := s.setAcc a (zeroVec s.w)

/-- VZERO (R143). -/
def execVzero (a : BitVec 2) (s : State) : Host.Outcome State Fault Refusal :=
  runPlain (.vzero a) (vzeroStep (indexOfField a)) s

end Sys2Proof.Machine
end

