-- ==== Sys2Proof/Machine/Dispatch.lean ====
section
/-! DEFINITION. One arm for each command of the opcode map (spec/30_encoding.md R117). -/

namespace Sys2Proof.Machine

def exec (i : Instr) (s : State) : Host.Outcome State Fault Refusal :=
  match i with
  | .nop => Sys2Proof.Machine.execNop s
  | .init => Sys2Proof.Machine.execInit s
  | .sfold => Sys2Proof.Machine.execSfold s
  | .sfold8 => Sys2Proof.Machine.execSfold8 s
  | .vrpi => Sys2Proof.Machine.execVrpi s
  | .tail => Sys2Proof.Machine.execTail s
  | .vseed a => Sys2Proof.Machine.execVseed a s
  | .vzero a => Sys2Proof.Machine.execVzero a s
  | .vmac a o st => Sys2Proof.Machine.execVmac a o st s
  | .hred m => Sys2Proof.Machine.execHred m s
  | .hash v => Sys2Proof.Machine.execHash v s

end Sys2Proof.Machine
end

