-- ==== Sys2Proof/Machine/Window.lean ====
section
/-! DEFINITION. The register window: the map of offsets, RegRead, RegWrite and a host access
(spec/10_state.md R49; spec/20_memory.md R87-R96). -/

namespace Sys2Proof.Machine

/-- What sits at an offset of the window (R49). -/
inductive Reg where
  | param | ctrl | status | cmd | base | len | pos | h
  | acc (a : Fin 4) (j : Nat)
  | pow (k : Nat)
  | reserved
  deriving DecidableEq, Repr

/-- The rows of R49 with a name of their own, 0x000 to 0x01C; the rest of the first area is reserved. -/
def Reg.named (off : Nat) : Reg :=
  match off with
  | 0x000 => .param
  | 0x004 => .ctrl
  | 0x008 => .status
  | 0x00C => .cmd
  | 0x010 => .base
  | 0x014 => .len
  | 0x018 => .pos
  | 0x01C => .h
  | _ => .reserved

/-- The accumulator rows of R49, `d` bytes past 0x400: four slots of 0x100 bytes, lane `j` at 4*j, reserved from lane `w`
on. -/
def Reg.inAcc (w d : Nat) : Reg :=
  if d % 0x100 / 4 < w then .acc (Fin.ofNat 4 (d / 0x100)) (d % 0x100 / 4) else .reserved

/-- The ROM rows of R49, `d` bytes past 0x800: entry `k` at 4*k, reserved above entry 4W. -/
def Reg.inRom (w d : Nat) : Reg := if d / 4 ≤ 4 * w then .pow (d / 4) else .reserved

/-- The register map of R49 for lane count `w`, on word-aligned offsets below 0x1000: its three areas. -/
def Reg.ofOffset (w off : Nat) : Reg :=
  if off < 0x400 then .named off else if off < 0x800 then .inAcc w (off - 0x400) else .inRom w (off - 0x800)

/-- H, POS and the ACC lanes: unspecified when read while BUSY = 1 (R93). -/
def Reg.isDatapath : Reg → Bool
  | .h => true
  | .pos => true
  | .acc _ _ => true
  | .param => false
  | .ctrl => false
  | .status => false
  | .cmd => false
  | .base => false
  | .len => false
  | .pow _ => false
  | .reserved => false

/-- `RegRead` (R89): the register's value, 0 for CMD and for a reserved offset. -/
def regRead (r : Reg) (s : State) : Word :=
  match r with
  | .param => paramWord s.w
  | .ctrl => ctrlWord s.ie
  | .status => statusWord s.status
  | .cmd => 0
  | .base => s.base
  | .len => s.len
  | .pos => s.pos
  | .h => s.h
  | .acc a j => lane (s.accOf a) j
  | .pow k => pow31 k
  | .reserved => 0

/-- A host read: its data goes to the host (`readData`). H, POS and ACC while BUSY = 1 give a draw (R93). A read of STATUS
that returns BUSY = 0 is the host's observation that ends the duty of R97. No read changes a register (R89). -/
def busRead (r : Reg) (s : State) : State :=
  if s.status.busy && r.isDatapath then
    { s with readData := some (Config.draw s.draws), draws := s.draws + 1 }
  else
    { s with
      readData := some (regRead r s)
      reading := if r = .status ∧ s.status.busy = false then [] else s.reading
      uses := if r = .status ∧ s.status.busy = false then [] else s.uses }

/-- A write to BASE, LEN, POS, H or an ACC lane: dropped with error BUSY while BUSY = 1, else it takes effect
(R90, R92, R238). -/
def writeIdle (set : State → State) (s : State) : State :=
  if s.status.busy then raise .busy s else set s

/-- `RegWrite` (R90, R92, R94). A register the host writes has a value of its own from then on (log entry 8). -/
def regWrite (r : Reg) (v : Word) (s : State) : State :=
  match r with
  | .param => s
  | .ctrl => { s with ie := v.getLsbD 0 }
  | .status => { s with status := clearStatus v s.status }
  | .cmd => submit v s
  | .base => writeIdle (fun t => { t with base := v }) s
  | .len => writeIdle (fun t => { t with len := v }) s
  | .pos => writeIdle (fun t => { t.remark Marks.dropPos with pos := v }) s
  | .h => writeIdle (fun t => { t.remark Marks.dropH with h := v }) s
  | .acc a j => writeIdle (fun t => (t.remark fun m => m.dropLane a j).setAcc a (setLane t.w (t.accOf a) j v)) s
  | .pow _ => s
  | .reserved => s

/-- A host access: refused outside the window, below 32 bits and off word alignment (R87), else RegRead or RegWrite of the
register at `addr - PHA_BASE`. -/
def hostAccess (a : HostAccess) (s : State) : Host.Outcome State Fault Refusal :=
  if a.addr < s.platform.phaBase ∨ s.platform.phaBase + 0x1000 ≤ a.addr then .refused .outsideWindow
  else if a.size ≠ .word then .refused .subWordAccess
  else if (a.addr - s.platform.phaBase) % 4 ≠ 0 then .refused .misalignedAccess
  else
    match a.kind with
    | .read => .next (busRead (Reg.ofOffset s.w (a.addr - s.platform.phaBase)) s)
    | .write v => .next (regWrite (Reg.ofOffset s.w (a.addr - s.platform.phaBase)) v s)

end Sys2Proof.Machine
end

