-- ==== Sys2Proof/Machine/Step.lean ====
section
/-! DEFINITION. One step of the machine: the next event of the schedule, or the engine (spec/10_state.md R30, R42). -/

namespace Sys2Proof.Machine

/-- Performs a turn: an engine step performs the whole pending command, a host access reads or writes one register, a
memory event changes one input byte, the reset signal resets (R95). -/
def runTurn : Turn → Host.Outcome State Fault Refusal
  | .idle t => .next t
  | .engine w t =>
    match decode w with
    | .ok i => exec i t
    | .error _ => .fault .reservedEncoding
  | .host a t => hostAccess a t
  | .memory a b t => .next (storeByte a b t)
  | .reset t => .next (resetSignal t)

/-- One atomic step. An idle machine holds its state (R250). -/
def step (s : State) : Host.Outcome State Fault Refusal := runTurn (nextTurn s)

/-- `s` with the command word whose table bits are `w` in PENDING and the engine's turn next. The PHA fetches nothing
(R102): a command word comes to the engine through a CMD write and its acceptance, and this stands for them
(log entry 14). -/
def State.withFetchWord (s : State) (nbits w : Nat) : State :=
  placePending (BitVec.ofNat 32 (w % 2 ^ nbits)) s

end Sys2Proof.Machine
end

