-- ==== Sys2Proof/Safety.lean ====
section
/-! DEFINITION. The terms claims are stated in: the polynomial hash (spec/00_scope.md R18), the invariant of the machine,
and the end of a computation (spec/70_reset_and_hazards.md R277). -/

namespace Sys2Proof.Machine

/-- `Fold(h, b)`: the left fold `h <- 31*h + b[i]` over words already sign-extended (R18). -/
def foldFrom (h : Word) (b : List Word) : Word := b.foldl (fun h x => 31 * h + x) h

/-- `PolyHash(b) = Fold(1, b)` (R18). -/
def polyHash (b : List Word) : Word := foldFrom 1 b

/-- `InputByte(lo), …, InputByte(lo + n - 1)` (R84). -/
def State.inputWords (s : State) (lo n : Nat) : List Word :=
  (List.range n).map fun k => s.inputByte (lo + k)

/-- STATUS is coherent: BUSY means that a command is pending (R42), ERRCODE is 0 exactly while ERR is 0 (R39), and DONE is
clear while BUSY is set (R42). -/
structure Status.Coherent (t : Status) (pending : Option Word) : Prop where
  busy_iff : t.busy = pending.isSome
  code_iff : t.err = false ↔ t.code = .none
  done_idle : t.busy = true → t.done = false

/-- The pending word is a command that passed acceptance: it decodes, and its RANGE check holds (R234, R237). -/
def Accepted (s : State) : Prop :=
  ∀ w, s.pending = some w → ∃ i, decode w = .ok i ∧ rangeOk s i = true

/-- What every run keeps. -/
structure State.Inv (s : State) : Prop where
  status : s.status.Coherent s.pending
  accepted : Accepted s
  lanes : ∀ a : Fin 4, (s.accOf a).length = s.w
  memory : Memory.wf s.input
  breach : s.breached = true → s.pending.isSome = true
  idle : s.pending = none → s.reading = []

/-- The computation has ended well: no command is pending, ERR = 0 and DONE = 1 (R277). -/
def State.endedWell (s : State) : Prop :=
  s.pending = none ∧ s.status.err = false ∧ s.status.done = true

/-- The completion update of R42: PENDING <- none, BUSY <- 0, DONE <- 1. The model's record of the input bytes in use, which no
register shows, is `t`'s (log entries 7 and 8). -/
def State.finish (s t : State) : State :=
  { s with
    pending := none
    status := { s.status with busy := false, done := true }
    reading := t.reading
    uses := t.uses }

/-- The status after `raise E(c)`: ERR is set, and ERRCODE is the first code since ERR was last clear (R233). -/
def Status.withError (t : Status) (c : ErrCode) : Status :=
  { t with err := true, code := if t.err then t.code else c }

/-- A 32-bit host access at an offset of the register window (R87). -/
def State.accessAt (s : State) (off : Nat) (k : AccessKind) : HostAccess :=
  { size := .word, addr := s.platform.phaBase + off, kind := k }

/-- The host program of spec/43_hash.md R212 for each variant, over a buffer of `len` bytes and W = `w`. -/
def scriptOf (w len : Nat) : Variant → List Instr
  | .scalar => [.init, .tail]
  | .unrolled => .init :: List.replicate (len / 8) .sfold8 ++ [.tail]
  | .rpi => .init :: List.replicate (len / w) .vrpi ++ [.tail]
  | .deferred => .init :: List.replicate (len / w) (.vmac 0 3 0) ++ [.hred 0b0001, .tail]
  | .dual =>
    .init :: (List.replicate (len / (2 * w)) [.vmac 0 2 1, .vmac 1 3 1]).flatten ++ [.hred 0b0011, .tail]
  | .quad =>
    .init :: (List.replicate (len / (4 * w))
      [.vmac 0 0 2, .vmac 1 1 2, .vmac 2 2 2, .vmac 3 3 2]).flatten ++ [.hred 0b1111, .tail]

/-- Runs a list of commands one after another, each performed by the engine, stopping at the first that does not answer a
next state: the host program of separate commands of spec/43_hash.md R212, without its register accesses. -/
def runCommands : List Instr → State → Host.Outcome State Fault Refusal
  | [], s => .next s
  | i :: rest, s =>
    match exec i s with
    | .next t => runCommands rest t
    | .fault f => .fault f
    | .refused r => .refused r

end Sys2Proof.Machine
end

