-- ==== Sys2Proof/Certificates/Slice0/Obligations.lean ====
section
/-! DEFINITION. The statements about the model, each read from the numbered rules of spec/. -/

open Sys2Proof Sys2Proof.Machine

/-! ### Encoding (spec/30_encoding.md) -/

/-- Words written out from R112-R117 and from table V-DEC of 95_test_vectors.md decode to the commands they stand for. -/
def Obligations.WordsOfTheTableDecode : Prop :=
  decode 0x00000000 = .ok .nop ∧ decode 0x00000001 = .ok .init ∧ decode 0x00000002 = .ok .sfold ∧
  decode 0x00000003 = .ok .sfold8 ∧ decode 0x00000004 = .ok .vrpi ∧ decode 0x00000005 = .ok .tail ∧
  decode 0x00000108 = .ok (.vseed 1) ∧ decode 0x00000309 = .ok (.vzero 3) ∧
  decode 0x00001810 = .ok (.vmac 0 2 1) ∧ decode 0x00002F10 = .ok (.vmac 3 3 2) ∧
  decode 0x00000518 = .ok (.hred 5) ∧ decode 0x00000520 = .ok (.hash 5) ∧
  decode 0x00000409 = .error .reservedBit ∧ decode 0x00003010 = .error .reservedField ∧
  decode 0x00000006 = .error .unassignedOpcode

/-- Decoding the word of a well-formed command gives the command back, with every operand at every value. -/
def Obligations.DecodeOfEncodeIsTheCommand : Prop :=
  ∀ i : Instr, i.WellFormed → decode (encode i) = .ok i

/-- A word that decodes is the word of the command it decodes to: no two words are one command. -/
def Obligations.EncodeOfDecodeIsTheWord : Prop :=
  ∀ (w : Word) (i : Instr), decode w = .ok i → i.WellFormed ∧ encode i = w

/-- R118: S = 3 in VMAC and V = 6 or 7 in HASH are rejected at acceptance with ILLEGAL. -/
def Obligations.ReservedFieldsAreIllegal : Prop :=
  ∀ (s : State) (w : Word), s.status.busy = false →
    ((w.extractLsb' 0 8 = 0x10 ∧ w.extractLsb' 12 2 = 3) ∨
     (w.extractLsb' 0 8 = 0x20 ∧ (w.extractLsb' 8 3 = 6 ∨ w.extractLsb' 8 3 = 7))) →
    hostAccess (s.accessAt 0x00C (.write w)) s =
      .next { s with status := s.status.withError .illegal }

/-- R119: a valid OPC with a 1 in a bit that its format gives to no field is rejected with ILLEGAL. Each pair is an OPC and
the bits its format uses. -/
def Obligations.ReservedBitsAreIllegal : Prop :=
  ∀ (s : State) (w opc used : Word), s.status.busy = false →
    (opc, used) ∈ ([(0x00, 0xFF), (0x01, 0xFF), (0x02, 0xFF), (0x03, 0xFF), (0x04, 0xFF), (0x05, 0xFF),
      (0x08, 0x3FF), (0x09, 0x3FF), (0x10, 0x3FFF), (0x18, 0xFFF), (0x20, 0x7FF)] : List (Word × Word)) →
    w &&& 0xFF = opc → w &&& ~~~used ≠ 0 →
    hostAccess (s.accessAt 0x00C (.write w)) s =
      .next { s with status := s.status.withError .illegal }

/-- R120: a word whose OPC is unassigned is rejected with ILLEGAL. -/
def Obligations.UnassignedOpcodesAreIllegal : Prop :=
  ∀ (s : State) (w : Word), s.status.busy = false →
    (let opc := w.toNat % 256
     opc = 0x06 ∨ opc = 0x07 ∨ (0x0A ≤ opc ∧ opc ≤ 0x0F) ∨ (0x11 ≤ opc ∧ opc ≤ 0x17) ∨
       (0x19 ≤ opc ∧ opc ≤ 0x1F) ∨ 0x21 ≤ opc) →
    hostAccess (s.accessAt 0x00C (.write w)) s =
      .next { s with status := s.status.withError .illegal }

/-! ### The step (spec/10_state.md R30, R42) -/

/-- With the engine's turn next, or no event left, a step performs the pending command: `exec` of what PENDING decodes to,
with the turn taken off the schedule. -/
def Obligations.StepRunsTheDecodedCommand : Prop :=
  ∀ (s : State) (w : Word) (i : Instr), s.pending = some w → decode w = .ok i →
    (s.schedule = [] → step s = exec i s) ∧
    (∀ rest, s.schedule = .engine :: rest → step s = exec i { s with schedule := rest })

/-- A step performs the next event of the schedule and takes it off; the engine with nothing pending, and an idle machine
with no event left, change nothing else (R250). -/
def Obligations.StepTakesTheNextEvent : Prop :=
  (∀ (s : State) (a : HostAccess) (rest : List Event), s.schedule = .host a :: rest →
    step s = hostAccess a { s with schedule := rest }) ∧
  (∀ (s : State) (a : Word) (b : Byte) (rest : List Event), s.schedule = .memory a b :: rest →
    step s = .next (storeByte a b { s with schedule := rest })) ∧
  (∀ (s : State) (rest : List Event), s.schedule = .engine :: rest → s.pending = none →
    step s = .next { s with schedule := rest }) ∧
  (∀ s : State, s.schedule = [] → s.pending = none → step s = .next s)

/-! ### What each command does -/

/-- R140: NOP changes no data; only the completion update happens. (Here and below `State.finish` leaves the model's record of
the input in use open: log entries 7 and 8.) -/
def Obligations.NopOnlyCompletes : Prop :=
  ∀ s : State, s.breached = false → ∃ t : State, exec .nop s = .next t ∧ t = s.finish t

/-- R141: INIT seeds H, every accumulator and POS, and keeps BASE and LEN. -/
def Obligations.InitSeedsEverything : Prop :=
  ∀ s : State, s.breached = false → ∃ t : State, exec .init s = .next t ∧
    t = { s.finish t with h := 1, pos := 0, acc := t.acc } ∧
    ∀ (a : Fin 4) (j : Nat), j < s.w → lane (t.accOf a) j = if a = 0 ∧ j = 0 then 1 else 0

/-- R142, R143: VSEED loads e0 into ACC[A] and VZERO clears it; the other accumulators and every other register stay. -/
def Obligations.VseedAndVzeroWriteOneAccumulator : Prop :=
  ∀ (s : State) (a : BitVec 2), s.breached = false →
    (∃ t : State, exec (.vseed a) s = .next t ∧ t = { s.finish t with acc := t.acc } ∧
      (∀ j, j < s.w → lane (t.accOf a.toFin) j = if j = 0 then 1 else 0) ∧
      ∀ b : Fin 4, b ≠ a.toFin → t.accOf b = s.accOf b) ∧
    (∃ t : State, exec (.vzero a) s = .next t ∧ t = { s.finish t with acc := t.acc } ∧
      (∀ j, j < s.w → lane (t.accOf a.toFin) j = 0) ∧
      ∀ b : Fin 4, b ≠ a.toFin → t.accOf b = s.accOf b)

/-- R160: SFOLD with its byte admitted folds it into H and advances POS by 1. -/
def Obligations.SfoldFoldsOneByte : Prop :=
  ∀ s : State, s.breached = false → s.platform.admits (s.base + s.pos) = true →
    ∃ t : State, exec .sfold s = .next t ∧
      t = { s.finish t with
        h := 31 * s.h + (s.byteAt (s.base + s.pos)).signExtend 32
        pos := s.pos + 1 }

/-- R163: SFOLD8 gives the H and POS of eight SFOLD commands in a row, which is the fold over its eight bytes. -/
def Obligations.SfoldEightIsEightSfolds : Prop :=
  ∀ s : State, s.breached = false → s.admitsBytes s.pos.toNat 8 = true →
    (∃ t : State, exec .sfold8 s = .next t ∧
      t = { s.finish t with
        h := foldFrom s.h (s.inputWords s.pos.toNat 8)
        pos := s.pos + 8 }) ∧
    (∃ t : State, runCommands (List.replicate 8 .sfold) s = .next t ∧
      t.h = foldFrom s.h (s.inputWords s.pos.toNat 8) ∧ t.pos = s.pos + 8) ∧
    s.h * BitVec.ofNat 32 (31 ^ 8) +
        sumTo (fun k => s.inputByte (s.pos.toNat + k) * BitVec.ofNat 32 (31 ^ (7 - k))) 8 =
      foldFrom s.h (s.inputWords s.pos.toNat 8)

/-- R165: TAIL leaves H = Fold(H0, bytes POS0..LEN-1) and POS = LEN, as LEN - POS0 SFOLD commands in a row do (beside
the model's record `uses`, log entry 8); the tail of a split fold starts from 0 (90_conflicts.md C4). -/
def Obligations.TailFoldsTheRest : Prop :=
  (∀ s : State, s.breached = false → s.pos.toNat ≤ s.len.toNat →
    s.admitsBytes s.pos.toNat (s.len.toNat - s.pos.toNat) = true →
    ∃ t : State, exec .tail s = .next t ∧
      t = { s.finish t with
        h := foldFrom s.h (s.inputWords s.pos.toNat (s.len.toNat - s.pos.toNat))
        pos := s.len } ∧
      (s.pos ≠ s.len → ∃ t' : State,
        runCommands (List.replicate (s.len.toNat - s.pos.toNat) .sfold) s = .next t' ∧
        t' = { t with uses := t'.uses })) ∧
  (∀ (h : Word) (t : List Word),
    foldFrom h t = h * BitVec.ofNat 32 (31 ^ t.length) + foldFrom 0 t)

/-- R181: VRPI gives the H and POS of W SFOLD commands in a row, which is the fold over the block; ACC stays. -/
def Obligations.VrpiIsWSfolds : Prop :=
  ∀ s : State, s.breached = false → s.admitsBytes s.pos.toNat s.w = true →
    (∃ t : State, exec .vrpi s = .next t ∧
      t = { s.finish t with
        h := foldFrom s.h (s.inputWords s.pos.toNat s.w)
        pos := s.pos + BitVec.ofNat 32 s.w }) ∧
    (∃ t : State, runCommands (List.replicate s.w .sfold) s = .next t ∧
      t.h = foldFrom s.h (s.inputWords s.pos.toNat s.w) ∧ t.pos = s.pos + BitVec.ofNat 32 s.w) ∧
    s.h * BitVec.ofNat 32 (31 ^ s.w) +
        sumTo (fun j => s.inputByte (s.pos.toNat + j) * BitVec.ofNat 32 (31 ^ (s.w - 1 - j))) s.w =
      foldFrom s.h (s.inputWords s.pos.toNat s.w)

/-- R182: VMAC multiplies every lane of ACC[A] by 31^W, 31^(2W) or 31^(4W) and adds the weighted block; H, the other
accumulators and every other register stay. -/
def Obligations.VmacAdvancesOneAccumulator : Prop :=
  ∀ (s : State) (a o st : BitVec 2), st ≠ 3 → s.breached = false → s.admitsBytes s.pos.toNat s.w = true →
    ∃ t : State, exec (.vmac a o st) s = .next t ∧
      t = { s.finish t with acc := t.acc, pos := s.pos + BitVec.ofNat 32 s.w } ∧
      (∀ j, j < s.w → lane (t.accOf a.toFin) j =
        lane (s.accOf a.toFin) j * BitVec.ofNat 32 (31 ^ (2 ^ st.toNat * s.w)) +
          s.inputByte (s.pos.toNat + j) * BitVec.ofNat 32 (31 ^ (4 * s.w - 1 - o.toNat * s.w - j))) ∧
      ∀ b : Fin 4, b ≠ a.toFin → t.accOf b = s.accOf b

/-- R183: the horizontal sum is linear, so after VMAC it is STEP(S) times the old sum plus the weighted block's sum. -/
def Obligations.HorizontalSumIsLinear : Prop :=
  (∀ (w : Nat) (u : LaneVec) (c : Word), hsum w (lanesOf w fun j => lane u j * c) = c * hsum w u) ∧
  (∀ (w : Nat) (u v : LaneVec), hsum w (lanesOf w fun j => lane u j + lane v j) = hsum w u + hsum w v) ∧
  (∀ (s : State) (a o st : BitVec 2) (k : StepSel), stepOfField st = some k → s.breached = false →
    s.admitsBytes s.pos.toNat s.w = true →
    ∃ t : State, exec (.vmac a o st) s = .next t ∧
      hsum s.w (t.accOf a.toFin) = stepConst s.w k * hsum s.w (s.accOf a.toFin) +
        sumTo (fun j => lane (s.loadBlock s.pos.toNat) j * weightLane s.w o.toFin j) s.w)

/-- R184: HRED writes to H the sum of the lanes of the accumulators that M selects, 0 for M = 0, and changes nothing
else. -/
def Obligations.HredSumsTheSelectedAccumulators : Prop :=
  ∀ (s : State) (m : BitVec 4), s.breached = false →
    (∃ t : State, exec (.hred m) s = .next t ∧
      t = { s.finish t with
        h := ((List.finRange 4).map fun a : Fin 4 =>
          if m.getLsbD a.val then sumTo (fun j => lane (s.accOf a) j) s.w else 0).sum }) ∧
    ∃ t : State, exec (.hred 0) s = .next t ∧ t = { s.finish t with h := 0 }

/-- R207: whatever V, W, LEN, the bytes and the state before, HASH that completes leaves H = PolyHash of the buffer; POS is
LEN, and only H, ACC, POS and the completion update change. -/
def Obligations.HashIsThePolynomialHash : Prop :=
  ∀ (s : State) (v : BitVec 3), v.toNat ≤ 5 → s.breached = false → s.admitsBytes 0 s.len.toNat = true →
    ∃ t : State, exec (.hash v) s = .next t ∧
      t = { s.finish t with h := t.h, acc := t.acc, pos := s.len } ∧
      t.h = polyHash (s.inputWords 0 s.len.toNat)

/-- R209: the accumulators after HASH, in closed form: U accumulators (none for V = 0..2), n full macro-blocks. -/
def Obligations.HashLeavesTheUnreducedAccumulators : Prop :=
  ∀ (s : State) (v : BitVec 3), s.breached = false → s.admitsBytes 0 s.len.toNat = true →
    (v.toNat ≤ 2 → ∃ t : State, exec (.hash v) s = .next t ∧ t.pos = s.len ∧
      ∀ (a : Fin 4) (j : Nat), j < s.w → lane (t.accOf a) j = if a = 0 ∧ j = 0 then 1 else 0) ∧
    (∀ u, (v.toNat, u) ∈ [(3, 1), (4, 2), (5, 4)] → ∃ t : State, exec (.hash v) s = .next t ∧ t.pos = s.len ∧
      ∀ (q : Fin 4) (j : Nat), j < s.w → lane (t.accOf q) j =
        if q.val < u then
          (if q = 0 ∧ j = 0 then BitVec.ofNat 32 (31 ^ (u * s.w * (s.len.toNat / (u * s.w)))) else 0) +
          sumTo (fun m => s.inputByte (u * s.w * m + q.val * s.w + j) *
            BitVec.ofNat 32 (31 ^ (u * s.w * (s.len.toNat / (u * s.w) - 1 - m) + u * s.w - 1 - q.val * s.w - j)))
            (s.len.toNat / (u * s.w))
        else 0)

/-- R210: HASH's result depends only on LEN and the values of the input bytes: not on BASE, not on H, ACC or POS before, and
not on W. -/
def Obligations.HashDependsOnlyOnTheBuffer : Prop :=
  ∀ (s s' t t' : State) (v : BitVec 3), s.breached = false → s'.breached = false →
    s.admitsBytes 0 s.len.toNat = true → s'.admitsBytes 0 s'.len.toNat = true →
    s.len = s'.len → (∀ i, i < s.len.toNat → s.inputByte i = s'.inputByte i) →
    exec (.hash v) s = .next t → exec (.hash v) s' = .next t' → t.h = t'.h

/-- R212: each variant is also a program of separate commands that leaves the same H, ACC and POS. -/
def Obligations.HashIsItsScriptOfCommands : Prop :=
  ∀ (s : State) (v : BitVec 3) (k : Variant), variantOfField v = some k → s.breached = false →
    s.admitsBytes 0 s.len.toNat = true →
    ∃ t t' : State, exec (.hash v) s = .next t ∧
      runCommands (scriptOf s.w s.len.toNat k) s = .next t' ∧
      t'.h = t.h ∧ t'.acc = t.acc ∧ t'.pos = t.pos

/-- R18: the fold from 1 over sign-extended bytes is 31^L + Σ b[i]*31^(L-1-i) over the integers, taken modulo 2^32. -/
def Obligations.PolyHashIsTheClosedForm : Prop :=
  ∀ b : List Byte, polyHash (b.map sext32) =
    BitVec.ofInt 32 (31 ^ b.length + ∑ i : Fin b.length, (b[i]).toInt * 31 ^ (b.length - 1 - i.val))

/-- A reserved field value, which no accepted word carries (R118, R235), stops the engine by name: the model's choice, log
entry 11. -/
def Obligations.ReservedFieldsStopTheEngine : Prop :=
  ∀ (s : State) (i : Instr), ¬ i.WellFormed → exec i s = .fault .reservedEncoding

/-! ### What every command keeps -/

/-- No command writes LEN, BASE, CTRL or the input memory, whether it completes or aborts, and the build stays; every byte
of the input memory reads as before. -/
def Obligations.CommandsKeepConfigurationAndMemory : Prop :=
  ∀ (i : Instr) (s t : State), exec i s = .next t →
    t.len = s.len ∧ t.base = s.base ∧ t.ie = s.ie ∧ t.platform = s.platform ∧
    t.schedule = s.schedule ∧ t.readData = s.readData ∧
    ∀ a : Word, t.byteAt a = s.byteAt a

/-- The engine either completes a command (DONE <- 1, no error recorded) or aborts it with BUSERR, never both, and in either
case PENDING is none and BUSY is 0 afterwards. -/
def Obligations.EngineCompletesOrAborts : Prop :=
  ∀ (i : Instr) (s t : State), exec i s = .next t →
    t.pending = none ∧ t.breached = false ∧
    (t.status = { s.status with busy := false, done := true } ∨
     t.status = { s.status.withError .busErr with busy := false })

/-- R236: a command that reads a byte which is not admitted aborts: BUSERR, PENDING none, BUSY 0, DONE as it was, BASE, LEN
and CTRL kept, and H, POS and every lane unspecified. Which of the free values each register draws is the model's choice
(log entry 6), and so are the model's own fields `reading`, `uses` and `breached` (log entries 7 and 8). -/
def Obligations.InadmissibleInputAborts : Prop :=
  ∀ (s : State) (i : Instr),
    ((i = .sfold ∧ s.platform.admits (s.ea s.pos.toNat) = false) ∨
     (i = .sfold8 ∧ ∃ k, k < 8 ∧ s.platform.admits (s.ea (s.pos.toNat + k)) = false) ∨
     ((i = .vrpi ∨ ∃ a o st, st ≠ 3 ∧ i = .vmac a o st) ∧
        ∃ k, k < s.w ∧ s.platform.admits (s.ea (s.pos.toNat + k)) = false) ∨
     (i = .tail ∧ ∃ k, s.pos.toNat ≤ k ∧ k < s.len.toNat ∧ s.platform.admits (s.ea k) = false) ∨
     (∃ v : BitVec 3, v.toNat ≤ 5 ∧ i = .hash v ∧ ∃ k, k < s.len.toNat ∧ s.platform.admits (s.ea k) = false)) →
    ∃ t : State, exec i s = .next t ∧
      t = { s with
        pending := none
        reading := t.reading
        uses := t.uses
        breached := false
        status := { s.status.withError .busErr with busy := false }
        h := Config.draw s.draws
        pos := Config.draw (s.draws + 1)
        acc := t.acc
        draws := s.draws + 2 + 4 * s.w } ∧
      ∀ (a : Fin 4) (j : Nat), j < s.w → lane (t.accOf a) j = Config.draw (s.draws + 2 + a.val * s.w + j)

/-- R35: where acceptance held and no byte is missing, POS moves by exactly the bytes a command consumes and never past
LEN, so it never wraps. -/
def Obligations.PosAdvancesWithinLen : Prop :=
  ∀ (s t : State) (i : Instr), rangeOk s i = true → s.breached = false →
    s.admitsBytes 0 s.len.toNat = true → exec i s = .next t →
    (i = .sfold → t.pos.toNat = s.pos.toNat + 1 ∧ t.pos.toNat ≤ s.len.toNat) ∧
    (i = .sfold8 → t.pos.toNat = s.pos.toNat + 8 ∧ t.pos.toNat ≤ s.len.toNat) ∧
    ((i = .vrpi ∨ ∃ a o st, i = .vmac a o st) →
      t.pos.toNat = s.pos.toNat + s.w ∧ t.pos.toNat ≤ s.len.toNat) ∧
    ((i = .tail ∨ ∃ v, i = .hash v) → t.pos = s.len) ∧
    (i = .init → t.pos = 0) ∧
    ((i = .nop ∨ (∃ a, i = .vseed a) ∨ (∃ a, i = .vzero a) ∨ ∃ m, i = .hred m) → t.pos = s.pos)

/-- R277: a command that completes with ERR clear ends the computation well. -/
def Obligations.CompletionWithoutErrorEndsWell : Prop :=
  ∀ (i : Instr) (s t : State), exec i s = .next t → s.status.err = false →
    (t.endedWell ∨ (t.status.err = true ∧ t.status.code = .busErr))

/-! ### Host accesses (spec/20_memory.md) -/

/-- R87: inside the window, an aligned 32-bit access is answered and any other access is refused by name. -/
def Obligations.WindowAnswersAlignedWordsOnly : Prop :=
  ∀ (s : State) (a : HostAccess), s.platform.phaBase ≤ a.addr → a.addr < s.platform.phaBase + 0x1000 →
    (a.size = .word → (a.addr - s.platform.phaBase) % 4 = 0 → ∃ t : State, hostAccess a s = .next t) ∧
    (a.size ≠ .word → hostAccess a s = .refused .subWordAccess) ∧
    (a.size = .word → (a.addr - s.platform.phaBase) % 4 ≠ 0 → hostAccess a s = .refused .misalignedAccess)

/-- R94, R234, R237: a CMD write runs the checks BUSY, ILLEGAL, RANGE in that order and stops at the first that fails, with
only ERR and ERRCODE changed; otherwise the command is accepted. `n` is the command's byte count. -/
def Obligations.CmdWriteIsAcceptedOrRejected : Prop :=
  ∀ (s : State) (w : Word),
    (s.status.busy = true →
      hostAccess (s.accessAt 0x00C (.write w)) s = .next { s with status := s.status.withError .busy }) ∧
    (s.status.busy = false → (∀ i, decode w ≠ .ok i) →
      hostAccess (s.accessAt 0x00C (.write w)) s = .next { s with status := s.status.withError .illegal }) ∧
    (∀ i, s.status.busy = false → decode w = .ok i →
      let n : Option Nat := match i with
        | .sfold => some 1
        | .sfold8 => some 8
        | .vrpi => some s.w
        | .vmac _ _ _ => some s.w
        | .tail => some 0
        | .nop => none
        | .init => none
        | .vseed _ => none
        | .vzero _ => none
        | .hred _ => none
        | .hash _ => none
      ((∃ k, n = some k ∧ s.len.toNat < s.pos.toNat + k) →
        hostAccess (s.accessAt 0x00C (.write w)) s = .next { s with status := s.status.withError .range }) ∧
      ((∀ k, n = some k → s.pos.toNat + k ≤ s.len.toNat) →
        ∃ t : State, hostAccess (s.accessAt 0x00C (.write w)) s = .next t ∧
          t = { s with
            pending := some w
            status := { s.status with busy := true, done := false }
            reading := t.reading }))

/-- R90: what a write to each register of the window does while BUSY = 0. The model's record `uses`, which no register shows,
follows a write to POS, H or an ACC lane (log entry 8). -/
def Obligations.IdleWritesTakeEffect : Prop :=
  ∀ (s : State) (v : Word), s.status.busy = false →
    hostAccess (s.accessAt 0x010 (.write v)) s = .next { s with base := v } ∧
    hostAccess (s.accessAt 0x014 (.write v)) s = .next { s with len := v } ∧
    (∃ t : State, hostAccess (s.accessAt 0x018 (.write v)) s = .next t ∧ t = { s with pos := v, uses := t.uses }) ∧
    (∃ t : State, hostAccess (s.accessAt 0x01C (.write v)) s = .next t ∧ t = { s with h := v, uses := t.uses }) ∧
    (∀ (a : Fin 4) (j : Nat), j < s.w → ∃ t : State,
      hostAccess (s.accessAt (0x400 + 0x100 * a.val + 4 * j) (.write v)) s = .next t ∧
      t = { s with acc := t.acc, uses := t.uses } ∧ lane (t.accOf a) j = v ∧
      (∀ k, k < s.w → k ≠ j → lane (t.accOf a) k = lane (s.accOf a) k) ∧
      ∀ b : Fin 4, b ≠ a → t.accOf b = s.accOf b) ∧
    hostAccess (s.accessAt 0x004 (.write v)) s = .next { s with ie := v.getLsbD 0 } ∧
    hostAccess (s.accessAt 0x008 (.write v)) s = .next { s with status :=
      { busy := false
        done := if v.getLsbD 1 then false else s.status.done
        err := if v.getLsbD 2 then false else s.status.err
        code := if v.getLsbD 2 then .none else s.status.code } } ∧
    hostAccess (s.accessAt 0x00C (.write v)) s = .next (submit v s) ∧
    hostAccess (s.accessAt 0x000 (.write v)) s = .next s ∧
    (∀ k, k < 512 → hostAccess (s.accessAt (0x800 + 4 * k) (.write v)) s = .next s) ∧
    (∀ off, 0x020 ≤ off → off < 0x400 → off % 4 = 0 → hostAccess (s.accessAt off (.write v)) s = .next s) ∧
    (∀ (a : Fin 4) (j : Nat), s.w ≤ j → j < 64 →
      hostAccess (s.accessAt (0x400 + 0x100 * a.val + 4 * j) (.write v)) s = .next s)

/-- R92, R238: while BUSY = 1, a write to CMD, BASE, LEN, POS, H or an ACC lane is dropped with error BUSY; CTRL and STATUS
writes take effect; PARAM, POW and reserved offsets ignore the write with no error. -/
def Obligations.BusyWritesAreDropped : Prop :=
  ∀ (s : State) (v : Word), s.status.busy = true →
    (∀ off, (off ∈ [0x00C, 0x010, 0x014, 0x018, 0x01C] ∨
        ∃ (a : Fin 4) (j : Nat), j < s.w ∧ off = 0x400 + 0x100 * a.val + 4 * j) →
      hostAccess (s.accessAt off (.write v)) s = .next { s with status := s.status.withError .busy }) ∧
    hostAccess (s.accessAt 0x004 (.write v)) s = .next { s with ie := v.getLsbD 0 } ∧
    hostAccess (s.accessAt 0x008 (.write v)) s = .next { s with status :=
      { busy := true
        done := if v.getLsbD 1 then false else s.status.done
        err := if v.getLsbD 2 then false else s.status.err
        code := if v.getLsbD 2 then .none else s.status.code } } ∧
    hostAccess (s.accessAt 0x000 (.write v)) s = .next s ∧
    (∀ k, k < 512 → hostAccess (s.accessAt (0x800 + 4 * k) (.write v)) s = .next s) ∧
    (∀ off, 0x020 ≤ off → off < 0x400 → off % 4 = 0 → hostAccess (s.accessAt off (.write v)) s = .next s) ∧
    (∀ (a : Fin 4) (j : Nat), s.w ≤ j → j < 64 →
      hostAccess (s.accessAt (0x400 + 0x100 * a.val + 4 * j) (.write v)) s = .next s)

/-- R89: what a read of each offset of the window returns while BUSY = 0. A read changes no register: beside the data the
host receives, only the model's record of the input bytes in use can change (log entries 7 and 8). -/
def Obligations.IdleReadsReturnTheRegisters : Prop :=
  ∀ (s : State) (off : Nat), s.status.busy = false → off < 0x1000 → off % 4 = 0 →
    ∃ (t : State) (v : Word), hostAccess (s.accessAt off .read) s = .next t ∧
      t = { s with readData := some v, reading := t.reading, uses := t.uses } ∧
      (off = 0x000 → v = paramWord s.w) ∧ (off = 0x004 → v = ctrlWord s.ie) ∧
      (off = 0x008 → v = statusWord s.status) ∧ (off = 0x00C → v = 0) ∧
      (off = 0x010 → v = s.base) ∧ (off = 0x014 → v = s.len) ∧ (off = 0x018 → v = s.pos) ∧ (off = 0x01C → v = s.h) ∧
      (0x020 ≤ off → off < 0x400 → v = 0) ∧
      (∀ (a : Fin 4) (j : Nat), j < 64 → off = 0x400 + 0x100 * a.val + 4 * j →
        v = if j < s.w then lane (s.accOf a) j else 0) ∧
      (∀ k, off = 0x800 + 4 * k → v = if k ≤ 4 * s.w then BitVec.ofNat 32 (31 ^ k) else 0)

/-- R93: while BUSY = 1, a read of POS, H or an ACC lane returns an unspecified value (the next free value: the
model's numbering, log entry 6), and the other reads return their defined values. -/
def Obligations.BusyReadsOfTheDatapathAreUnspecified : Prop :=
  ∀ s : State, s.status.busy = true →
    (∀ off, (off = 0x018 ∨ off = 0x01C ∨
        ∃ (a : Fin 4) (j : Nat), j < s.w ∧ off = 0x400 + 0x100 * a.val + 4 * j) →
      hostAccess (s.accessAt off .read) s =
        .next { s with readData := some (Config.draw s.draws), draws := s.draws + 1 }) ∧
    (∀ off v, (off, v) ∈ [(0x000, paramWord s.w), (0x004, ctrlWord s.ie), (0x008, statusWord s.status), (0x00C, 0),
        (0x010, s.base), (0x014, s.len)] →
      hostAccess (s.accessAt off .read) s = .next { s with readData := some v }) ∧
    (∀ k, k < 512 → hostAccess (s.accessAt (0x800 + 4 * k) .read) s =
      .next { s with readData := some (if k ≤ 4 * s.w then BitVec.ofNat 32 (31 ^ k) else 0) }) ∧
    (∀ off, 0x020 ≤ off → off < 0x400 → off % 4 = 0 →
      hostAccess (s.accessAt off .read) s = .next { s with readData := some 0 }) ∧
    (∀ (a : Fin 4) (j : Nat), s.w ≤ j → j < 64 →
      hostAccess (s.accessAt (0x400 + 0x100 * a.val + 4 * j) .read) s = .next { s with readData := some 0 })

/-- R91: a command comes to be pending only by a CMD write of its word. -/
def Obligations.OnlyACmdWriteStartsACommand : Prop :=
  ∀ (s t : State) (w : Word), step s = .next t → s.pending = none → t.pending = some w →
    ∃ rest, s.schedule = .host (s.accessAt 0x00C (.write w)) :: rest

/-- R40: PARAM holds W, 4, 31 and 0 in its four bytes, 0x001F0408 for W = 8; the host reads it at 0x000 in every state, a
write is ignored and reset keeps it. -/
def Obligations.ParamHoldsTheBuild : Prop :=
  (∀ s : State,
    (paramWord s.w).extractLsb' 0 8 = BitVec.ofNat 8 s.w ∧ (paramWord s.w).extractLsb' 8 8 = 4 ∧
    (paramWord s.w).extractLsb' 16 8 = 31 ∧ (paramWord s.w).extractLsb' 24 8 = 0 ∧
    (s.w = 8 → paramWord s.w = 0x001F0408) ∧ paramWord (resetSignal s).w = paramWord s.w) ∧
  (∀ s : State, hostAccess (s.accessAt 0x000 .read) s = .next { s with readData := some (paramWord s.w) }) ∧
  (∀ (s : State) (v : Word), hostAccess (s.accessAt 0x000 (.write v)) s = .next s)

/-- R38: CTRL reads IE at bit 0 and 0 elsewhere, in every state; a write sets IE to bit 0 and nothing else, busy or not; IE is 0 after
reset. -/
def Obligations.CtrlIsTheInterruptEnable : Prop :=
  (∀ (s : State) (k : Nat), (ctrlWord s.ie).getLsbD k = (decide (k = 0) && s.ie)) ∧
  (∀ s : State, hostAccess (s.accessAt 0x004 .read) s = .next { s with readData := some (ctrlWord s.ie) }) ∧
  (∀ (s : State) (v : Word),
    hostAccess (s.accessAt 0x004 (.write v)) s = .next { s with ie := v.getLsbD 0 }) ∧
  (∀ s : State, (resetSignal s).ie = false)

/-- R39: the layout of STATUS as a host reads it. -/
def Obligations.StatusWordHasItsLayout : Prop :=
  ∀ t : Status,
    (statusWord t).getLsbD 0 = t.busy ∧ (statusWord t).getLsbD 1 = t.done ∧ (statusWord t).getLsbD 2 = t.err ∧
    (statusWord t).getLsbD 3 = false ∧
    (statusWord t).extractLsb' 4 4 = (match t.code with
      | .none => 0
      | .illegal => 1
      | .range => 2
      | .busy => 3
      | .busErr => 4) ∧
    (statusWord t).extractLsb' 8 24 = 0

/-- R44: POW[k] is 31^k modulo 2^32, with POW[0] = 1 and POW[k] = 31 * POW[k-1]; the host reads it at 0x800 + 4k in every
state and cannot write it. -/
def Obligations.RomHoldsThePowersOf31 : Prop :=
  pow31 0 = 1 ∧ (∀ k, 1 ≤ k → pow31 k = 31 * pow31 (k - 1)) ∧ (∀ k, pow31 k = BitVec.ofNat 32 (31 ^ k)) ∧
  ∀ (s : State) (k : Nat), k ≤ 4 * s.w →
    hostAccess (s.accessAt (0x800 + 4 * k) .read) s =
      .next { s with readData := some (BitVec.ofNat 32 (31 ^ k)) } ∧
    ∀ v, hostAccess (s.accessAt (0x800 + 4 * k) (.write v)) s = .next s

/-! ### Input memory (spec/20_memory.md) -/

/-- R82: EA(i) = (BASE + i) mod 2^32. -/
def Obligations.EffectiveAddressWraps : Prop :=
  ∀ (s : State) (i : Nat), (s.ea i).toNat = (s.base.toNat + i) % 2 ^ 32

/-- Nothing in the PHA writes the input memory: only a memory event changes a byte, and only the byte at its address. -/
def Obligations.OnlyMemoryEventsChangeTheInput : Prop :=
  ∀ s t : State, step s = .next t →
    ((∀ a b rest, s.schedule ≠ .memory a b :: rest) → t.input = s.input) ∧
    (∀ a b rest, s.schedule = .memory a b :: rest →
      t.byteAt a = b ∧ ∀ a', a' ≠ a → t.byteAt a' = s.byteAt a')

/-- R97, R271 for HASH: a byte of the buffer that changes after acceptance makes H, POS and ACC unspecified at completion,
with DONE set and no error raised. That a write of the same value counts, and which free values are drawn, are the model's
choices (log entries 6 and 7); an earlier command that read the same byte takes its own draws first (log entry 8). -/
def Obligations.InputChangedInUseGivesDraws : Prop :=
  ∀ (s : State) (v : BitVec 3) (k : Nat) (b : Byte), s.status.busy = false → v.toNat ≤ 5 → k < s.len.toNat →
    s.admitsBytes 0 s.len.toNat = true →
    ∃ s1 s2 t : State,
      hostAccess (s.accessAt 0x00C (.write (encode (.hash v)))) s = .next s1 ∧
      storeByte (s.ea k) b s1 = s2 ∧ exec (.hash v) s2 = .next t ∧
      t.status = { s.status with busy := false, done := true } ∧ t.pending = none ∧
      ∃ d, s.draws ≤ d ∧ t.h = Config.draw d ∧ t.pos = Config.draw (d + 1) ∧
        ∀ (a : Fin 4) (j : Nat), j < s.w → lane (t.accOf a) j = Config.draw (d + 2 + a.val * s.w + j)

/-- For every command: with the duty of R97 broken, a command whose bytes are admitted completes, DONE is set, no error is
raised, and H, POS and ACC are free values. The record `breached` and the numbering of the draws are the model's (log entries
6, 7 and 8). -/
def Obligations.BrokenDutyDrawsAtCompletion : Prop :=
  ∀ (s : State) (i : Instr), i.WellFormed → s.breached = true → s.admitsBytes 0 s.len.toNat = true →
    rangeOk s i = true →
    ∃ t : State, exec i s = .next t ∧
      t = { s.finish t with
        breached := false
        h := Config.draw s.draws
        pos := Config.draw (s.draws + 1)
        acc := t.acc
        draws := s.draws + 2 + 4 * s.w } ∧
      ∀ (a : Fin 4) (j : Nat), j < s.w → lane (t.accOf a) j = Config.draw (s.draws + 2 + a.val * s.w + j)

/-- A read of STATUS that returns BUSY = 0 ends the duty of R97: a byte that changes after it changes the input memory and
nothing else. The record of the input in use is the model's (log entry 8). -/
def Obligations.ObservingIdleEndsTheDuty : Prop :=
  ∀ (s : State) (a : Word) (b : Byte), s.status.busy = false →
    ∃ t : State, hostAccess (s.accessAt 0x008 .read) s = .next t ∧
      storeByte a b t = { t with input := writeCell t.input a.toNat b }

/-- R200, R210 and D19 beside R97: an accepted HASH depends on no earlier command. A byte outside its buffer may change while
it is pending, whatever earlier commands read it: H, ACC and POS are those of the HASH alone, with H = PolyHash, and such a
change after its completion leaves them as they are. -/
def Obligations.HashIgnoresTheInputOfEarlierCommands : Prop :=
  ∀ (s : State) (v : BitVec 3) (a : Word) (b : Byte), s.status.busy = false → s.breached = false → v.toNat ≤ 5 →
    s.admitsBytes 0 s.len.toNat = true → (∀ k, k < s.len.toNat → s.ea k ≠ a) →
    ∃ s1 t t0 : State,
      hostAccess (s.accessAt 0x00C (.write (encode (.hash v)))) s = .next s1 ∧
      exec (.hash v) (storeByte a b s1) = .next t ∧ exec (.hash v) s = .next t0 ∧
      t.h = polyHash (s.inputWords 0 s.len.toNat) ∧ t.h = t0.h ∧ t.acc = t0.acc ∧ t.pos = t0.pos ∧
      t.status = { s.status with busy := false, done := true } ∧
      ∀ (a' : Word) (b' : Byte), (∀ k, k < s.len.toNat → s.ea k ≠ a') →
        storeByte a' b' t = { t with input := writeCell t.input a'.toNat b' }

/-- R97 up to the host's observation: a byte that an accepted command reads and that changes after the command has completed
or aborted, with no STATUS read since, makes H, POS and every lane free values and changes no other register. Which of them
are drawn is the model's choice (log entries 6 and 8). -/
def Obligations.InputChangedBeforeObservationGivesDraws : Prop :=
  ∀ (s s1 t : State) (w : Word) (i : Instr) (k : Nat) (b : Byte), s.status.busy = false → decode w = .ok i →
    hostAccess (s.accessAt 0x00C (.write w)) s = .next s1 → rangeOk s i = true →
    exec i s1 = .next t → k < s.len.toNat →
    ((∃ v, i = .hash v) ∨
     ((i = .sfold ∨ i = .sfold8 ∨ i = .vrpi ∨ i = .tail ∨ ∃ a o st, i = .vmac a o st) ∧ s.pos.toNat ≤ k)) →
    ∃ t' : State, storeByte (s.ea k) b t = t' ∧
      t' = { t with
        input := writeCell t.input (s.ea k).toNat b
        h := Config.draw t.draws
        pos := Config.draw (t.draws + 1)
        acc := t'.acc
        draws := t.draws + 2 + 4 * t.w } ∧
      ∀ (a : Fin 4) (j : Nat), j < t.w → lane (t'.accOf a) j = Config.draw (t.draws + 2 + a.val * t.w + j)

/-- R90 beside R97: H, POS or an ACC lane that the host has written keeps the written value, whatever bytes of earlier
commands change afterwards (log entry 8). -/
def Obligations.WrittenRegistersKeepTheirValue : Prop :=
  ∀ (s : State) (v : Word) (a : Word) (b : Byte), s.status.busy = false →
    (∃ t : State, hostAccess (s.accessAt 0x01C (.write v)) s = .next t ∧ (storeByte a b t).h = v) ∧
    (∃ t : State, hostAccess (s.accessAt 0x018 (.write v)) s = .next t ∧ (storeByte a b t).pos = v) ∧
    ∀ (k : Fin 4) (j : Nat), j < s.w → ∃ t : State,
      hostAccess (s.accessAt (0x400 + 0x100 * k.val + 4 * j) (.write v)) s = .next t ∧
      lane ((storeByte a b t).accOf k) j = v

/-! ### Errors and the interrupt (spec/60_exceptions.md) -/

/-- Once ERR is set, no step but the reset signal and a STATUS write with bit 2 set clears it or changes ERRCODE. -/
def Obligations.FirstErrorCodeStays : Prop :=
  ∀ s t : State, step s = .next t → s.status.err = true →
    (∀ rest, s.schedule ≠ .reset :: rest) →
    (∀ (v : Word) rest, v.getLsbD 2 = true → s.schedule ≠ .host (s.accessAt 0x008 (.write v)) :: rest) →
    t.status.err = true ∧ t.status.code = s.status.code

/-- R239: irq is the level IE and (DONE or ERR): up after every engine step if IE = 1, down while IE = 0, and down after a
write of 1 to STATUS bits 1 and 2. -/
def Obligations.InterruptFollowsStatus : Prop :=
  (∀ (i : Instr) (s t : State), exec i s = .next t → t.irq = s.ie) ∧
  (∀ s : State, s.ie = false → s.irq = false) ∧
  (∀ (s : State) (v : Word), v.getLsbD 1 = true → v.getLsbD 2 = true →
    ∃ t : State, hostAccess (s.accessAt 0x008 (.write v)) s = .next t ∧ t.irq = false) ∧
  (∀ s : State, (resetSignal s).irq = false)

/-! ### Reset (spec/70_reset_and_hazards.md) -/

/-- R260: the reset signal sets every register to its reset value and PENDING to none in one step, and touches neither the
input memory nor the ROM nor the build. -/
def Obligations.ResetSignalRestoresEveryRegister : Prop :=
  ∀ (s : State) (rest : List Event), s.schedule = .reset :: rest → ∃ t : State, step s = .next t ∧
    t = { s with
      h := 1, pos := 0, len := 0, base := 0, ie := false, pending := none
      status := { busy := false, done := false, err := false, code := .none }
      acc := t.acc
      schedule := rest, reading := t.reading, uses := t.uses, breached := t.breached } ∧
    t.irq = false ∧
    ∀ (a : Fin 4) (j : Nat), j < s.w → lane (t.accOf a) j = if a = 0 ∧ j = 0 then 1 else 0

/-- R262: after the reset signal, HASH with any V, or TAIL, would leave H = 1, the hash of the empty sequence. -/
def Obligations.HashAfterResetIsOne : Prop :=
  ∀ (s : State) (v : BitVec 3), v.toNat ≤ 5 →
    (∃ t : State, exec (.hash v) (resetSignal s) = .next t ∧ t.h = 1) ∧
    (∃ t : State, exec .tail (resetSignal s) = .next t ∧ t.h = 1)

/-! ### Invariants and whole-machine rules -/

/-- The state after reset meets the invariant. -/
def Obligations.ResetMeetsTheInvariant : Prop := State.reset.Inv

/-- Every step keeps the invariant: BUSY is 1 exactly while a command is pending, ERRCODE is 0 exactly while ERR is 0, DONE
is 0 while BUSY is 1, the pending word is a legal command inside its range, every accumulator has W lanes, the input memory
is in canonical form, and the duty of R97 is broken, and input bytes are being read, only while a command is pending. -/
def Obligations.StepKeepsTheInvariant : Prop :=
  ∀ s t : State, s.Inv → step s = .next t → t.Inv

/-- The build (W, InputAdmit, PHA_BASE) never changes. -/
def Obligations.StepKeepsTheBuild : Prop :=
  ∀ s t : State, step s = .next t → t.platform = s.platform

/-- From a state that meets the invariant no step faults, and only a host access that is outside the window, narrower than
32 bits or misaligned is refused. -/
def Obligations.NoStepFaultsUnderTheInvariant : Prop :=
  ∀ s : State, s.Inv →
    (∀ f, step s ≠ .fault f) ∧
    (∀ r, step s = .refused r → ∃ a rest, s.schedule = .host a :: rest ∧
      (a.addr < s.platform.phaBase ∨ s.platform.phaBase + 0x1000 ≤ a.addr ∨ a.size ≠ .word ∨
        (a.addr - s.platform.phaBase) % 4 ≠ 0))

/-- R275: an accepted command completes or aborts as soon as the engine has its turn. -/
def Obligations.EngineTurnEndsThePendingCommand : Prop :=
  ∀ (s : State) (w : Word), s.Inv → s.pending = some w →
    (s.schedule = [] ∨ ∃ rest, s.schedule = .engine :: rest) →
    ∃ t : State, step s = .next t ∧ t.pending = none ∧ t.status.busy = false
end

