-- ==== Sys2Proof/Laws/State.lean ====
section
/-! SUPPORT. Each field of the state after each shared operation, so that no proof unfolds a record update. -/

namespace Sys2Proof.Machine

variable (s : State)

/-! ### setH -/

@[simp] theorem State.setH_platform (v : Word) : (s.setH v).platform = s.platform := (rfl)
@[simp] theorem State.setH_h (v : Word) : (s.setH v).h = v := (rfl)
@[simp] theorem State.setH_acc (v : Word) : (s.setH v).acc = s.acc := (rfl)
@[simp] theorem State.setH_pos (v : Word) : (s.setH v).pos = s.pos := (rfl)
@[simp] theorem State.setH_len (v : Word) : (s.setH v).len = s.len := (rfl)
@[simp] theorem State.setH_base (v : Word) : (s.setH v).base = s.base := (rfl)
@[simp] theorem State.setH_ie (v : Word) : (s.setH v).ie = s.ie := (rfl)
@[simp] theorem State.setH_status (v : Word) : (s.setH v).status = s.status := (rfl)
@[simp] theorem State.setH_pending (v : Word) : (s.setH v).pending = s.pending := (rfl)
@[simp] theorem State.setH_input (v : Word) : (s.setH v).input = s.input := (rfl)
@[simp] theorem State.setH_schedule (v : Word) : (s.setH v).schedule = s.schedule := (rfl)
@[simp] theorem State.setH_readData (v : Word) : (s.setH v).readData = s.readData := (rfl)
@[simp] theorem State.setH_reading (v : Word) : (s.setH v).reading = s.reading := (rfl)
@[simp] theorem State.setH_uses (v : Word) : (s.setH v).uses = s.uses := (rfl)
@[simp] theorem State.setH_breached (v : Word) : (s.setH v).breached = s.breached := (rfl)
@[simp] theorem State.setH_draws (v : Word) : (s.setH v).draws = s.draws := (rfl)
@[simp] theorem State.setH_w (v : Word) : (s.setH v).w = s.w := (rfl)

/-! ### setAcc -/

@[simp] theorem State.setAcc_platform (a : Fin 4) (v : LaneVec) : (s.setAcc a v).platform = s.platform := (rfl)
@[simp] theorem State.setAcc_h (a : Fin 4) (v : LaneVec) : (s.setAcc a v).h = s.h := (rfl)
@[simp] theorem State.setAcc_acc (a : Fin 4) (v : LaneVec) : (s.setAcc a v).acc = s.acc.set a.val v a.isLt := (rfl)
@[simp] theorem State.setAcc_pos (a : Fin 4) (v : LaneVec) : (s.setAcc a v).pos = s.pos := (rfl)
@[simp] theorem State.setAcc_len (a : Fin 4) (v : LaneVec) : (s.setAcc a v).len = s.len := (rfl)
@[simp] theorem State.setAcc_base (a : Fin 4) (v : LaneVec) : (s.setAcc a v).base = s.base := (rfl)
@[simp] theorem State.setAcc_ie (a : Fin 4) (v : LaneVec) : (s.setAcc a v).ie = s.ie := (rfl)
@[simp] theorem State.setAcc_status (a : Fin 4) (v : LaneVec) : (s.setAcc a v).status = s.status := (rfl)
@[simp] theorem State.setAcc_pending (a : Fin 4) (v : LaneVec) : (s.setAcc a v).pending = s.pending := (rfl)
@[simp] theorem State.setAcc_input (a : Fin 4) (v : LaneVec) : (s.setAcc a v).input = s.input := (rfl)
@[simp] theorem State.setAcc_schedule (a : Fin 4) (v : LaneVec) : (s.setAcc a v).schedule = s.schedule := (rfl)
@[simp] theorem State.setAcc_readData (a : Fin 4) (v : LaneVec) : (s.setAcc a v).readData = s.readData := (rfl)
@[simp] theorem State.setAcc_reading (a : Fin 4) (v : LaneVec) : (s.setAcc a v).reading = s.reading := (rfl)
@[simp] theorem State.setAcc_uses (a : Fin 4) (v : LaneVec) : (s.setAcc a v).uses = s.uses := (rfl)
@[simp] theorem State.setAcc_breached (a : Fin 4) (v : LaneVec) : (s.setAcc a v).breached = s.breached := (rfl)
@[simp] theorem State.setAcc_draws (a : Fin 4) (v : LaneVec) : (s.setAcc a v).draws = s.draws := (rfl)
@[simp] theorem State.setAcc_w (a : Fin 4) (v : LaneVec) : (s.setAcc a v).w = s.w := (rfl)

/-! ### advance -/

@[simp] theorem State.advance_platform (n : Nat) : (s.advance n).platform = s.platform := (rfl)
@[simp] theorem State.advance_h (n : Nat) : (s.advance n).h = s.h := (rfl)
@[simp] theorem State.advance_acc (n : Nat) : (s.advance n).acc = s.acc := (rfl)
@[simp] theorem State.advance_pos (n : Nat) : (s.advance n).pos = s.pos + BitVec.ofNat 32 n := (rfl)
@[simp] theorem State.advance_len (n : Nat) : (s.advance n).len = s.len := (rfl)
@[simp] theorem State.advance_base (n : Nat) : (s.advance n).base = s.base := (rfl)
@[simp] theorem State.advance_ie (n : Nat) : (s.advance n).ie = s.ie := (rfl)
@[simp] theorem State.advance_status (n : Nat) : (s.advance n).status = s.status := (rfl)
@[simp] theorem State.advance_pending (n : Nat) : (s.advance n).pending = s.pending := (rfl)
@[simp] theorem State.advance_input (n : Nat) : (s.advance n).input = s.input := (rfl)
@[simp] theorem State.advance_schedule (n : Nat) : (s.advance n).schedule = s.schedule := (rfl)
@[simp] theorem State.advance_readData (n : Nat) : (s.advance n).readData = s.readData := (rfl)
@[simp] theorem State.advance_reading (n : Nat) : (s.advance n).reading = s.reading := (rfl)
@[simp] theorem State.advance_uses (n : Nat) : (s.advance n).uses = s.uses := (rfl)
@[simp] theorem State.advance_breached (n : Nat) : (s.advance n).breached = s.breached := (rfl)
@[simp] theorem State.advance_draws (n : Nat) : (s.advance n).draws = s.draws := (rfl)
@[simp] theorem State.advance_w (n : Nat) : (s.advance n).w = s.w := (rfl)

/-! ### raise -/

@[simp] theorem raise_platform (c : ErrCode) : (raise c s).platform = s.platform := (rfl)
@[simp] theorem raise_h (c : ErrCode) : (raise c s).h = s.h := (rfl)
@[simp] theorem raise_acc (c : ErrCode) : (raise c s).acc = s.acc := (rfl)
@[simp] theorem raise_pos (c : ErrCode) : (raise c s).pos = s.pos := (rfl)
@[simp] theorem raise_len (c : ErrCode) : (raise c s).len = s.len := (rfl)
@[simp] theorem raise_base (c : ErrCode) : (raise c s).base = s.base := (rfl)
@[simp] theorem raise_ie (c : ErrCode) : (raise c s).ie = s.ie := (rfl)
@[simp] theorem raise_status (c : ErrCode) : (raise c s).status = raiseStatus c s.status := (rfl)
@[simp] theorem raise_pending (c : ErrCode) : (raise c s).pending = s.pending := (rfl)
@[simp] theorem raise_input (c : ErrCode) : (raise c s).input = s.input := (rfl)
@[simp] theorem raise_schedule (c : ErrCode) : (raise c s).schedule = s.schedule := (rfl)
@[simp] theorem raise_readData (c : ErrCode) : (raise c s).readData = s.readData := (rfl)
@[simp] theorem raise_reading (c : ErrCode) : (raise c s).reading = s.reading := (rfl)
@[simp] theorem raise_uses (c : ErrCode) : (raise c s).uses = s.uses := (rfl)
@[simp] theorem raise_breached (c : ErrCode) : (raise c s).breached = s.breached := (rfl)
@[simp] theorem raise_draws (c : ErrCode) : (raise c s).draws = s.draws := (rfl)
@[simp] theorem raise_w (c : ErrCode) : (raise c s).w = s.w := (rfl)

/-! ### redraw -/

@[simp] theorem redraw_platform : (redraw s).platform = s.platform := (rfl)
@[simp] theorem redraw_h : (redraw s).h = Config.draw s.draws := (rfl)
@[simp] theorem redraw_pos : (redraw s).pos = Config.draw (s.draws + 1) := (rfl)
@[simp] theorem redraw_len : (redraw s).len = s.len := (rfl)
@[simp] theorem redraw_base : (redraw s).base = s.base := (rfl)
@[simp] theorem redraw_ie : (redraw s).ie = s.ie := (rfl)
@[simp] theorem redraw_status : (redraw s).status = s.status := (rfl)
@[simp] theorem redraw_pending : (redraw s).pending = s.pending := (rfl)
@[simp] theorem redraw_input : (redraw s).input = s.input := (rfl)
@[simp] theorem redraw_schedule : (redraw s).schedule = s.schedule := (rfl)
@[simp] theorem redraw_readData : (redraw s).readData = s.readData := (rfl)
@[simp] theorem redraw_reading : (redraw s).reading = s.reading := (rfl)
@[simp] theorem redraw_uses : (redraw s).uses = s.uses := (rfl)
@[simp] theorem redraw_breached : (redraw s).breached = s.breached := (rfl)
@[simp] theorem redraw_draws : (redraw s).draws = s.draws + 2 + 4 * s.w := (rfl)
@[simp] theorem redraw_w : (redraw s).w = s.w := (rfl)

/-! ### seedAll -/

@[simp] theorem seedAll_platform : (seedAll s).platform = s.platform := (rfl)
@[simp] theorem seedAll_h : (seedAll s).h = 1 := (rfl)
@[simp] theorem seedAll_acc : (seedAll s).acc = #v[seedVec s.w, zeroVec s.w, zeroVec s.w, zeroVec s.w] := (rfl)
@[simp] theorem seedAll_pos : (seedAll s).pos = 0 := (rfl)
@[simp] theorem seedAll_len : (seedAll s).len = s.len := (rfl)
@[simp] theorem seedAll_base : (seedAll s).base = s.base := (rfl)
@[simp] theorem seedAll_ie : (seedAll s).ie = s.ie := (rfl)
@[simp] theorem seedAll_status : (seedAll s).status = s.status := (rfl)
@[simp] theorem seedAll_pending : (seedAll s).pending = s.pending := (rfl)
@[simp] theorem seedAll_input : (seedAll s).input = s.input := (rfl)
@[simp] theorem seedAll_schedule : (seedAll s).schedule = s.schedule := (rfl)
@[simp] theorem seedAll_readData : (seedAll s).readData = s.readData := (rfl)
@[simp] theorem seedAll_reading : (seedAll s).reading = s.reading := (rfl)
@[simp] theorem seedAll_uses : (seedAll s).uses = s.uses := (rfl)
@[simp] theorem seedAll_breached : (seedAll s).breached = s.breached := (rfl)
@[simp] theorem seedAll_draws : (seedAll s).draws = s.draws := (rfl)
@[simp] theorem seedAll_w : (seedAll s).w = s.w := (rfl)

/-! ### accept -/

@[simp] theorem accept_platform (w : Word) (i : Instr) : (accept w i s).platform = s.platform := (rfl)
@[simp] theorem accept_h (w : Word) (i : Instr) : (accept w i s).h = s.h := (rfl)
@[simp] theorem accept_acc (w : Word) (i : Instr) : (accept w i s).acc = s.acc := (rfl)
@[simp] theorem accept_pos (w : Word) (i : Instr) : (accept w i s).pos = s.pos := (rfl)
@[simp] theorem accept_len (w : Word) (i : Instr) : (accept w i s).len = s.len := (rfl)
@[simp] theorem accept_base (w : Word) (i : Instr) : (accept w i s).base = s.base := (rfl)
@[simp] theorem accept_ie (w : Word) (i : Instr) : (accept w i s).ie = s.ie := (rfl)
@[simp] theorem accept_pending (w : Word) (i : Instr) : (accept w i s).pending = some w := (rfl)
@[simp] theorem accept_input (w : Word) (i : Instr) : (accept w i s).input = s.input := (rfl)
@[simp] theorem accept_schedule (w : Word) (i : Instr) : (accept w i s).schedule = s.schedule := (rfl)
@[simp] theorem accept_readData (w : Word) (i : Instr) : (accept w i s).readData = s.readData := (rfl)
@[simp] theorem accept_reading (w : Word) (i : Instr) : (accept w i s).reading = protects s i := (rfl)
@[simp] theorem accept_uses (w : Word) (i : Instr) : (accept w i s).uses = s.uses := (rfl)
@[simp] theorem accept_breached (w : Word) (i : Instr) : (accept w i s).breached = s.breached := (rfl)
@[simp] theorem accept_draws (w : Word) (i : Instr) : (accept w i s).draws = s.draws := (rfl)
@[simp] theorem accept_w (w : Word) (i : Instr) : (accept w i s).w = s.w := (rfl)

/-! ### resetSignal -/

@[simp] theorem resetSignal_platform : (resetSignal s).platform = s.platform := (rfl)
@[simp] theorem resetSignal_h : (resetSignal s).h = 1 := (rfl)
@[simp] theorem resetSignal_acc : (resetSignal s).acc = #v[seedVec s.w, zeroVec s.w, zeroVec s.w, zeroVec s.w] := (rfl)
@[simp] theorem resetSignal_pos : (resetSignal s).pos = 0 := (rfl)
@[simp] theorem resetSignal_len : (resetSignal s).len = 0 := (rfl)
@[simp] theorem resetSignal_base : (resetSignal s).base = 0 := (rfl)
@[simp] theorem resetSignal_ie : (resetSignal s).ie = false := (rfl)
@[simp] theorem resetSignal_pending : (resetSignal s).pending = none := (rfl)
@[simp] theorem resetSignal_input : (resetSignal s).input = s.input := (rfl)
@[simp] theorem resetSignal_schedule : (resetSignal s).schedule = s.schedule := (rfl)
@[simp] theorem resetSignal_readData : (resetSignal s).readData = s.readData := (rfl)
@[simp] theorem resetSignal_reading : (resetSignal s).reading = [] := (rfl)
@[simp] theorem resetSignal_uses : (resetSignal s).uses = [] := (rfl)
@[simp] theorem resetSignal_breached : (resetSignal s).breached = false := (rfl)
@[simp] theorem resetSignal_draws : (resetSignal s).draws = s.draws := (rfl)
@[simp] theorem resetSignal_w : (resetSignal s).w = s.w := (rfl)

/-! ### remark -/

@[simp] theorem State.remark_platform (f : Marks → Marks) : (s.remark f).platform = s.platform := (rfl)
@[simp] theorem State.remark_h (f : Marks → Marks) : (s.remark f).h = s.h := (rfl)
@[simp] theorem State.remark_acc (f : Marks → Marks) : (s.remark f).acc = s.acc := (rfl)
@[simp] theorem State.remark_pos (f : Marks → Marks) : (s.remark f).pos = s.pos := (rfl)
@[simp] theorem State.remark_len (f : Marks → Marks) : (s.remark f).len = s.len := (rfl)
@[simp] theorem State.remark_base (f : Marks → Marks) : (s.remark f).base = s.base := (rfl)
@[simp] theorem State.remark_ie (f : Marks → Marks) : (s.remark f).ie = s.ie := (rfl)
@[simp] theorem State.remark_status (f : Marks → Marks) : (s.remark f).status = s.status := (rfl)
@[simp] theorem State.remark_pending (f : Marks → Marks) : (s.remark f).pending = s.pending := (rfl)
@[simp] theorem State.remark_input (f : Marks → Marks) : (s.remark f).input = s.input := (rfl)
@[simp] theorem State.remark_schedule (f : Marks → Marks) : (s.remark f).schedule = s.schedule := (rfl)
@[simp] theorem State.remark_readData (f : Marks → Marks) : (s.remark f).readData = s.readData := (rfl)
@[simp] theorem State.remark_reading (f : Marks → Marks) : (s.remark f).reading = s.reading := (rfl)
@[simp] theorem State.remark_uses (f : Marks → Marks) : (s.remark f).uses = (s.uses.map fun u => { u with marks := f u.marks }).filter fun u => u.marks.any := (rfl)
@[simp] theorem State.remark_breached (f : Marks → Marks) : (s.remark f).breached = s.breached := (rfl)
@[simp] theorem State.remark_draws (f : Marks → Marks) : (s.remark f).draws = s.draws := (rfl)
@[simp] theorem State.remark_w (f : Marks → Marks) : (s.remark f).w = s.w := (rfl)

/-! ### retire -/

@[simp] theorem retire_platform (i : Instr) : (retire i s).platform = s.platform := (rfl)
@[simp] theorem retire_h (i : Instr) : (retire i s).h = s.h := (rfl)
@[simp] theorem retire_acc (i : Instr) : (retire i s).acc = s.acc := (rfl)
@[simp] theorem retire_pos (i : Instr) : (retire i s).pos = s.pos := (rfl)
@[simp] theorem retire_len (i : Instr) : (retire i s).len = s.len := (rfl)
@[simp] theorem retire_base (i : Instr) : (retire i s).base = s.base := (rfl)
@[simp] theorem retire_ie (i : Instr) : (retire i s).ie = s.ie := (rfl)
@[simp] theorem retire_status (i : Instr) : (retire i s).status = s.status := (rfl)
@[simp] theorem retire_pending (i : Instr) : (retire i s).pending = s.pending := (rfl)
@[simp] theorem retire_input (i : Instr) : (retire i s).input = s.input := (rfl)
@[simp] theorem retire_schedule (i : Instr) : (retire i s).schedule = s.schedule := (rfl)
@[simp] theorem retire_readData (i : Instr) : (retire i s).readData = s.readData := (rfl)
@[simp] theorem retire_reading (i : Instr) : (retire i s).reading = [] := (rfl)
@[simp] theorem retire_uses (i : Instr) : (retire i s).uses = (s.reading.map fun r => ⟨r, .all s.w⟩) ++ (s.remark (carry s.w i)).uses := (rfl)
@[simp] theorem retire_breached (i : Instr) : (retire i s).breached = s.breached := (rfl)
@[simp] theorem retire_draws (i : Instr) : (retire i s).draws = s.draws := (rfl)
@[simp] theorem retire_w (i : Instr) : (retire i s).w = s.w := (rfl)

/-! ### complete -/

@[simp] theorem complete_platform (i : Instr) : (complete i s).platform = s.platform := by
  unfold complete; split <;> rfl

@[simp] theorem complete_len (i : Instr) : (complete i s).len = s.len := by
  unfold complete; split <;> rfl

@[simp] theorem complete_base (i : Instr) : (complete i s).base = s.base := by
  unfold complete; split <;> rfl

@[simp] theorem complete_ie (i : Instr) : (complete i s).ie = s.ie := by
  unfold complete; split <;> rfl

@[simp] theorem complete_pending (i : Instr) : (complete i s).pending = none := by
  unfold complete; split <;> rfl

@[simp] theorem complete_input (i : Instr) : (complete i s).input = s.input := by
  unfold complete; split <;> rfl

@[simp] theorem complete_schedule (i : Instr) : (complete i s).schedule = s.schedule := by
  unfold complete; split <;> rfl

@[simp] theorem complete_readData (i : Instr) : (complete i s).readData = s.readData := by
  unfold complete; split <;> rfl

@[simp] theorem complete_reading (i : Instr) : (complete i s).reading = [] := by
  unfold complete; split <;> rfl

@[simp] theorem complete_uses (i : Instr) : (complete i s).uses = (retire i s).uses := by
  unfold complete; split <;> rfl

@[simp] theorem complete_breached (i : Instr) : (complete i s).breached = false := by
  unfold complete; split <;> rfl

@[simp] theorem complete_w (i : Instr) : (complete i s).w = s.w := by
  unfold complete; split <;> rfl

/-! ### busAbort -/

@[simp] theorem busAbort_platform (i : Instr) : (busAbort i s).platform = s.platform := (rfl)
@[simp] theorem busAbort_h (i : Instr) : (busAbort i s).h = Config.draw s.draws := (rfl)
@[simp] theorem busAbort_pos (i : Instr) : (busAbort i s).pos = Config.draw (s.draws + 1) := (rfl)
@[simp] theorem busAbort_len (i : Instr) : (busAbort i s).len = s.len := (rfl)
@[simp] theorem busAbort_base (i : Instr) : (busAbort i s).base = s.base := (rfl)
@[simp] theorem busAbort_ie (i : Instr) : (busAbort i s).ie = s.ie := (rfl)
@[simp] theorem busAbort_pending (i : Instr) : (busAbort i s).pending = none := (rfl)
@[simp] theorem busAbort_input (i : Instr) : (busAbort i s).input = s.input := (rfl)
@[simp] theorem busAbort_schedule (i : Instr) : (busAbort i s).schedule = s.schedule := (rfl)
@[simp] theorem busAbort_readData (i : Instr) : (busAbort i s).readData = s.readData := (rfl)
@[simp] theorem busAbort_reading (i : Instr) : (busAbort i s).reading = [] := (rfl)
@[simp] theorem busAbort_uses (i : Instr) : (busAbort i s).uses = (retire i s).uses := (rfl)
@[simp] theorem busAbort_breached (i : Instr) : (busAbort i s).breached = false := (rfl)
@[simp] theorem busAbort_draws (i : Instr) : (busAbort i s).draws = s.draws + 2 + 4 * s.w := (rfl)
@[simp] theorem busAbort_w (i : Instr) : (busAbort i s).w = s.w := (rfl)

/-! ### spoil -/

@[simp] theorem spoil_platform (a : Word) : (spoil a s).platform = s.platform := by
  unfold spoil; split <;> rfl

@[simp] theorem spoil_len (a : Word) : (spoil a s).len = s.len := by
  unfold spoil; split <;> rfl

@[simp] theorem spoil_base (a : Word) : (spoil a s).base = s.base := by
  unfold spoil; split <;> rfl

@[simp] theorem spoil_ie (a : Word) : (spoil a s).ie = s.ie := by
  unfold spoil; split <;> rfl

@[simp] theorem spoil_status (a : Word) : (spoil a s).status = s.status := by
  unfold spoil; split <;> rfl

@[simp] theorem spoil_pending (a : Word) : (spoil a s).pending = s.pending := by
  unfold spoil; split <;> rfl

@[simp] theorem spoil_input (a : Word) : (spoil a s).input = s.input := by
  unfold spoil; split <;> rfl

@[simp] theorem spoil_schedule (a : Word) : (spoil a s).schedule = s.schedule := by
  unfold spoil; split <;> rfl

@[simp] theorem spoil_readData (a : Word) : (spoil a s).readData = s.readData := by
  unfold spoil; split <;> rfl

@[simp] theorem spoil_uses (a : Word) : (spoil a s).uses = s.uses := by
  unfold spoil; split <;> rfl

@[simp] theorem spoil_breached (a : Word) : (spoil a s).breached = s.breached := by
  unfold spoil; split <;> rfl

@[simp] theorem spoil_w (a : Word) : (spoil a s).w = s.w := by
  unfold spoil; split <;> rfl

/-! ### storeByte -/

@[simp] theorem storeByte_platform (a : Word) (b : Byte) : (storeByte a b s).platform = s.platform := by
  unfold storeByte; split <;> simp

@[simp] theorem storeByte_len (a : Word) (b : Byte) : (storeByte a b s).len = s.len := by
  unfold storeByte; split <;> simp

@[simp] theorem storeByte_base (a : Word) (b : Byte) : (storeByte a b s).base = s.base := by
  unfold storeByte; split <;> simp

@[simp] theorem storeByte_ie (a : Word) (b : Byte) : (storeByte a b s).ie = s.ie := by
  unfold storeByte; split <;> simp

@[simp] theorem storeByte_status (a : Word) (b : Byte) : (storeByte a b s).status = s.status := by
  unfold storeByte; split <;> simp

@[simp] theorem storeByte_pending (a : Word) (b : Byte) : (storeByte a b s).pending = s.pending := by
  unfold storeByte; split <;> simp

@[simp] theorem storeByte_input (a : Word) (b : Byte) : (storeByte a b s).input = writeCell s.input a.toNat b := by
  unfold storeByte; split <;> simp

@[simp] theorem storeByte_schedule (a : Word) (b : Byte) : (storeByte a b s).schedule = s.schedule := by
  unfold storeByte; split <;> simp

@[simp] theorem storeByte_readData (a : Word) (b : Byte) : (storeByte a b s).readData = s.readData := by
  unfold storeByte; split <;> simp

@[simp] theorem storeByte_uses (a : Word) (b : Byte) : (storeByte a b s).uses = s.uses := by
  unfold storeByte; split <;> simp

@[simp] theorem storeByte_w (a : Word) (b : Byte) : (storeByte a b s).w = s.w := by
  rw [State.w, storeByte_platform, State.w]

/-! ### Accumulators, status, and the derived reads -/

@[simp] theorem State.accOf_setAcc (a b : Fin 4) (v : LaneVec) :
    (s.setAcc a v).accOf b = if a = b then v else s.accOf b := by
  simp only [State.accOf, State.setAcc, Vector.getElem_set, Fin.ext_iff]

theorem accOf_congr {s t : State} (h : t.acc = s.acc) (a : Fin 4) : t.accOf a = s.accOf a := by
  simp only [State.accOf, h]

@[simp] theorem State.accOf_setH (v : Word) (a : Fin 4) : (s.setH v).accOf a = s.accOf a := (rfl)
@[simp] theorem State.accOf_advance (n : Nat) (a : Fin 4) : (s.advance n).accOf a = s.accOf a := (rfl)
@[simp] theorem raise_accOf (c : ErrCode) (a : Fin 4) : (raise c s).accOf a = s.accOf a := (rfl)
@[simp] theorem accept_accOf (w : Word) (i : Instr) (a : Fin 4) : (accept w i s).accOf a = s.accOf a := (rfl)

theorem redraw_accOf (a : Fin 4) :
    (redraw s).accOf a = lanesOf s.w fun j => Config.draw (s.draws + 2 + a.val * s.w + j) := by
  simp [State.accOf, redraw]

theorem seedAll_accOf (a : Fin 4) :
    (seedAll s).accOf a = if a = 0 then seedVec s.w else zeroVec s.w := by
  match a with
  | 0 => rfl
  | 1 => rfl
  | 2 => rfl
  | 3 => rfl

@[simp] theorem accept_status (w : Word) (i : Instr) :
    (accept w i s).status = { s.status with busy := true, done := false } := (rfl)

@[simp] theorem resetSignal_status :
    (resetSignal s).status = { busy := false, done := false, err := false, code := .none } := (rfl)

@[simp] theorem complete_status (i : Instr) : (complete i s).status = { s.status with busy := false, done := true } := by
  unfold complete; split <;> rfl

@[simp] theorem busAbort_status (i : Instr) :
    (busAbort i s).status = { raiseStatus .busErr s.status with busy := false } := (rfl)

/-- Completion with the input left unchanged writes only PENDING and STATUS (R42), beside the record of the input. -/
theorem complete_of_unbroken (i : Instr) (h : s.breached = false) : complete i s = s.finish (retire i s) := by
  unfold complete State.finish
  rw [if_neg (by simp [h])]
  cases s
  simp_all

/-- Completion with the duty of R97 broken draws H, POS and ACC. -/
theorem complete_of_broken (i : Instr) (h : s.breached = true) :
    complete i s = redraw { s.finish (retire i s) with breached := false } := by
  unfold complete
  rw [if_pos h]
  rfl

/-! ### The input bytes that performed commands read (R97) -/

/-- Once the host has observed BUSY = 0, no performed command's bytes are in use. -/
theorem spoil_of_no_uses {s : State} (a : Word) (h : s.uses = []) : spoil a s = s := by
  simp [spoil, State.spoils, h]

/-- A byte that no performed command read changes no register. -/
theorem spoil_of_not_hit {s : State} {a : Word} (h : s.spoils a Marks.any = false) : spoil a s = s := by
  simp [spoil, h]

@[simp] theorem raiseStatus_busy (c : ErrCode) (t : Status) : (raiseStatus c t).busy = t.busy := by
  unfold raiseStatus; split <;> rfl

@[simp] theorem raiseStatus_done (c : ErrCode) (t : Status) : (raiseStatus c t).done = t.done := by
  unfold raiseStatus; split <;> rfl

@[simp] theorem raiseStatus_err (c : ErrCode) (t : Status) : (raiseStatus c t).err = true := by
  unfold raiseStatus; split <;> simp_all

/-- The first error since ERR was last clear keeps its code (R233). -/
theorem raiseStatus_code_of_err (c : ErrCode) (t : Status) (h : t.err = true) :
    (raiseStatus c t).code = t.code := by
  simp [raiseStatus, h]

theorem raiseStatus_code_of_clear (c : ErrCode) (t : Status) (h : t.err = false) :
    (raiseStatus c t).code = c := by
  simp [raiseStatus, h]

/-- The input bytes depend on BASE and the input memory alone (R84). -/
theorem inputByte_congr {s t : State} (hb : t.base = s.base) (hm : t.input = s.input) (i : Nat) :
    t.inputByte i = s.inputByte i := by
  simp only [State.inputByte, State.byteAt, State.ea, hb, hm]

theorem admitsBytes_congr {s t : State} (hb : t.base = s.base) (hp : t.platform = s.platform) (lo n : Nat) :
    t.admitsBytes lo n = s.admitsBytes lo n := by
  induction n with
  | zero => rfl
  | succ n ih => simp only [State.admitsBytes, ih, State.ea, hb, hp]

/-- The lane count is in its legal range (R6). -/
theorem State.two_le_w : 2 ≤ s.w := s.platform.lanes.atLeast

theorem State.w_le : s.w ≤ 64 := s.platform.lanes.atMost

end Sys2Proof.Machine
end

