-- ==== Sys2Proof/Laws/Lanes.lean ====
section
/-! SUPPORT. Lanes, sums, powers of 31 and the fold: the algebra modulo 2^32 that the hash rests on
(spec/00_scope.md R12, R16-R18; spec/10_state.md R44-R46; spec/42_vector.md R183). -/

namespace Sys2Proof.Machine

/-! ### Lanes -/

@[simp] theorem length_lanesOf (w : Nat) (f : Nat → Word) : (lanesOf w f).length = w := by
  simp [lanesOf]

theorem lane_lanesOf {w j : Nat} (f : Nat → Word) (h : j < w) : lane (lanesOf w f) j = f j := by
  simp [lane, lanesOf, List.getD, h]

theorem lane_lanesOf_of_ge {w j : Nat} (f : Nat → Word) (h : w ≤ j) : lane (lanesOf w f) j = 0 := by
  simp [lane, lanesOf, List.getD, h]

theorem lane_setLane {w j k : Nat} (v : LaneVec) (x : Word) (h : k < w) :
    lane (setLane w v j x) k = if k = j then x else lane v k := lane_lanesOf _ h

/-- Vectors of `w` lanes are equal when their lanes are. -/
theorem laneVec_ext {w : Nat} {u v : LaneVec} (hu : u.length = w) (hv : v.length = w)
    (h : ∀ j, j < w → lane u j = lane v j) : u = v := by
  refine List.ext_getElem (hu.trans hv.symm) fun j h1 h2 => ?_
  have := h j (hu ▸ h1)
  simpa [lane, List.getD, h1, h2] using this

/-! ### Sums -/

theorem sumTo_congr {f g : Nat → Word} {n : Nat} (h : ∀ j, j < n → f j = g j) : sumTo f n = sumTo g n := by
  induction n with
  | zero => rfl
  | succ n ih => rw [sumTo, sumTo, ih fun j hj => h j (by omega), h n (by omega)]

theorem sumTo_add (f g : Nat → Word) (n : Nat) : sumTo (fun j => f j + g j) n = sumTo f n + sumTo g n := by
  induction n with
  | zero => rfl
  | succ n ih => rw [sumTo, sumTo, sumTo, ih]; ring

theorem sumTo_mul_left (c : Word) (f : Nat → Word) (n : Nat) : sumTo (fun j => c * f j) n = c * sumTo f n := by
  induction n with
  | zero => simp [sumTo]
  | succ n ih => rw [sumTo, sumTo, ih]; ring

theorem sumTo_mul_right (c : Word) (f : Nat → Word) (n : Nat) : sumTo (fun j => f j * c) n = sumTo f n * c := by
  induction n with
  | zero => simp [sumTo]
  | succ n ih => rw [sumTo, sumTo, ih]; ring

/-- A sum over `m + n` terms splits after the first `m`. -/
theorem sumTo_append (f : Nat → Word) (m n : Nat) : sumTo f (m + n) = sumTo f m + sumTo (fun j => f (m + j)) n := by
  induction n with
  | zero => simp [sumTo]
  | succ n ih => rw [← Nat.add_assoc, sumTo, sumTo, ih, add_assoc]

theorem sumTo_zero (n : Nat) : sumTo (fun _ => 0) n = 0 := by
  induction n with
  | zero => rfl
  | succ n ih => rw [sumTo, ih, add_zero]

theorem hsum_lanesOf (w : Nat) (f : Nat → Word) : hsum w (lanesOf w f) = sumTo f w :=
  sumTo_congr fun _ hj => lane_lanesOf f hj

theorem hsum_seedVec {w : Nat} (h : 0 < w) : hsum w (seedVec w) = 1 := by
  obtain ⟨k, rfl⟩ := Nat.exists_eq_add_of_lt h
  rw [seedVec, hsum_lanesOf, Nat.zero_add, Nat.add_comm, sumTo_append]
  have rest : sumTo (fun j => if 1 + j = 0 then (1 : Word) else 0) k = 0 :=
    (sumTo_congr fun j _ => if_neg (by omega)).trans (sumTo_zero k)
  rw [rest]
  rfl

theorem hsum_zeroVec (w : Nat) : hsum w (zeroVec w) = 0 := by
  rw [zeroVec, hsum_lanesOf, sumTo_zero]

/-! ### Powers of 31 -/

theorem pow31_add (m n : Nat) : pow31 (m + n) = pow31 m * pow31 n := by
  induction n with
  | zero => simp [pow31]
  | succ n ih => rw [← Nat.add_assoc, pow31, pow31, ih]; ring

@[simp] theorem pow31_zero : pow31 0 = 1 := rfl

@[simp] theorem pow31_one : pow31 1 = 31 := rfl

/-! ### The fold -/

@[simp] theorem foldFrom_nil (h : Word) : foldFrom h [] = h := rfl

@[simp] theorem foldFrom_cons (h x : Word) (b : List Word) : foldFrom h (x :: b) = foldFrom (31 * h + x) b := rfl

theorem foldFrom_append (h : Word) (b c : List Word) : foldFrom h (b ++ c) = foldFrom (foldFrom h b) c :=
  List.foldl_append

@[simp] theorem inputWords_zero (s : State) (lo : Nat) : s.inputWords lo 0 = [] := rfl

@[simp] theorem length_inputWords (s : State) (lo n : Nat) : (s.inputWords lo n).length = n := by
  simp [State.inputWords]

theorem inputWords_succ (s : State) (lo n : Nat) :
    s.inputWords lo (n + 1) = s.inputWords lo n ++ [s.inputByte (lo + n)] := by
  simp [State.inputWords, List.range_succ]

theorem inputWords_add (s : State) (lo m n : Nat) :
    s.inputWords lo (m + n) = s.inputWords lo m ++ s.inputWords (lo + m) n := by
  induction n with
  | zero => simp
  | succ n ih => rw [← Nat.add_assoc, inputWords_succ, ih, inputWords_succ, List.append_assoc, Nat.add_assoc]

theorem inputWords_congr {s t : State} (hb : t.base = s.base) (hm : t.input = s.input) (lo n : Nat) :
    t.inputWords lo n = s.inputWords lo n :=
  List.map_congr_left fun _ _ => inputByte_congr hb hm _

/-- The closed form of the fold over a run of input bytes: the last byte has weight 31^0. -/
theorem foldFrom_inputWords (s : State) (h : Word) (lo n : Nat) :
    foldFrom h (s.inputWords lo n) = h * pow31 n + sumTo (fun j => s.inputByte (lo + j) * pow31 (n - 1 - j)) n := by
  induction n with
  | zero => simp [sumTo]
  | succ n ih =>
    have step : sumTo (fun j => s.inputByte (lo + j) * pow31 (n + 1 - 1 - j)) n
        = 31 * sumTo (fun j => s.inputByte (lo + j) * pow31 (n - 1 - j)) n := by
      rw [← sumTo_mul_left]
      refine sumTo_congr fun j hj => ?_
      rw [show n + 1 - 1 - j = (n - 1 - j) + 1 by omega, pow31]
      ring
    rw [inputWords_succ, foldFrom_append, ih, sumTo, step]
    simp only [foldFrom_cons, foldFrom_nil, pow31]
    simp
    ring

end Sys2Proof.Machine
end

