-- ==== Sys2Proof/Laws/Memory.lean ====
section
/-! SUPPORT. The laws of the input memory: a read after a write, and the canonical form (spec/20_memory.md R81). -/

namespace Sys2Proof.Machine

theorem readCell_writeCell_same (m : List Host.Cell) (a : Nat) (b : Byte) :
    readCell (writeCell m a b) a = some b := by
  induction m with
  | nil => simp [writeCell, readCell]
  | cons c rest ih =>
    unfold writeCell
    split
    · simp [readCell]
    · split
      · simp [readCell]
      · rename_i _ hne
        simp [readCell, Ne.symm hne, ih]

theorem readCell_writeCell_other (m : List Host.Cell) {a a' : Nat} (b : Byte) (h : a' ≠ a) :
    readCell (writeCell m a b) a' = readCell m a' := by
  induction m with
  | nil => simp [writeCell, readCell, Ne.symm h]
  | cons c rest ih =>
    unfold writeCell
    split
    · simp [readCell, Ne.symm h]
    · split
      · rename_i _ heq
        simp [readCell, Ne.symm h, ← heq]
      · simp only [readCell, ih]

/-- An address listed after a write was listed before or is the written one. -/
theorem mem_writeCell {m : List Host.Cell} {a : Nat} {b : Byte} {c : Host.Cell} (h : c ∈ writeCell m a b) :
    c.1 = a ∨ c ∈ m := by
  induction m with
  | nil => simp [writeCell] at h; simp [h]
  | cons d rest ih =>
    unfold writeCell at h
    split at h
    · rcases List.mem_cons.1 h with rfl | h
      · simp
      · exact .inr h
    · split at h
      · rcases List.mem_cons.1 h with rfl | h
        · simp
        · exact .inr (List.mem_cons_of_mem _ h)
      · rcases List.mem_cons.1 h with rfl | h
        · simp
        · rcases ih h with h | h
          · exact .inl h
          · exact .inr (List.mem_cons_of_mem _ h)

/-- A write keeps the canonical form. -/
theorem writeCell_keeps_wf {m : List Host.Cell} (hm : Memory.wf m) {a : Nat} (ha : a < 2 ^ 32) (b : Byte) :
    Memory.wf (writeCell m a b) := by
  refine ⟨?_, fun c hc => ?_⟩
  · replace hm := hm.1
    induction m with
    | nil => simp [writeCell]
    | cons d rest ih =>
      rw [List.pairwise_cons] at hm
      unfold writeCell
      split
      · rename_i hlt
        refine List.pairwise_cons.2 ⟨fun c hc => ?_, List.pairwise_cons.2 hm⟩
        rcases List.mem_cons.1 hc with rfl | hc
        · exact hlt
        · exact hlt.trans (hm.1 c hc)
      · split
        · rename_i _ heq
          exact List.pairwise_cons.2 ⟨fun c hc => heq ▸ hm.1 c hc, hm.2⟩
        · rename_i hge hne
          refine List.pairwise_cons.2 ⟨fun c hc => ?_, ih hm.2⟩
          rcases mem_writeCell hc with h | h
          · omega
          · exact hm.1 c h
  · rcases mem_writeCell hc with h | h
    · exact h ▸ ha
    · exact hm.2 c h

theorem wf_reset_memory : Memory.wf State.reset.input := by
  refine ⟨List.Pairwise.nil, fun c hc => ?_⟩
  cases hc

end Sys2Proof.Machine
end

