-- ==== Sys2Proof/Laws/Exec.lean ====
section
/-! SUPPORT. What a command can do, said once: every command is one body on H, ACC and POS, the input bytes it reads, and
then completion or the BUSERR abort (spec/10_state.md R42; spec/60_exceptions.md R236). -/

namespace Sys2Proof.Machine

/-- `t` differs from `s` in H, ACC and POS alone. -/
def OnlyDatapath (s t : State) : Prop := t = { s with h := t.h, acc := t.acc, pos := t.pos }

namespace OnlyDatapath

theorem refl (s : State) : OnlyDatapath s s := rfl

theorem of (s : State) (h : Word) (acc : Vector LaneVec 4) (pos : Word) :
    OnlyDatapath s { s with h := h, acc := acc, pos := pos } := rfl

theorem trans {s t u : State} (h1 : OnlyDatapath s t) (h2 : OnlyDatapath t u) : OnlyDatapath s u := by
  unfold OnlyDatapath at *
  rw [h2, h1]

variable {s t : State} (h : OnlyDatapath s t)
include h

theorem platform : t.platform = s.platform := by rw [h]
theorem w : t.w = s.w := by rw [State.w, h.platform]; rfl
theorem len : t.len = s.len := by rw [h]
theorem base : t.base = s.base := by rw [h]
theorem ie : t.ie = s.ie := by rw [h]
theorem status : t.status = s.status := by rw [h]
theorem pending : t.pending = s.pending := by rw [h]
theorem input : t.input = s.input := by rw [h]
theorem schedule : t.schedule = s.schedule := by rw [h]
theorem readData : t.readData = s.readData := by rw [h]
theorem reading : t.reading = s.reading := by rw [h]
theorem uses : t.uses = s.uses := by rw [h]
theorem breached : t.breached = s.breached := by rw [h]
theorem draws : t.draws = s.draws := by rw [h]

end OnlyDatapath

/-- Every accumulator has W lanes. -/
def FullLanes (s : State) : Prop := ∀ a : Fin 4, (s.accOf a).length = s.w

theorem FullLanes.congr {s t : State} (h : FullLanes s) (ha : t.acc = s.acc) (hp : t.platform = s.platform) :
    FullLanes t := fun a => by
  rw [accOf_congr ha a, State.w, hp]
  exact h a

theorem setAcc_fullLanes {s : State} (h : FullLanes s) (a : Fin 4) {v : LaneVec} (hv : v.length = s.w) :
    FullLanes (s.setAcc a v) := fun b => by
  rw [State.accOf_setAcc, State.setAcc_w]
  split
  · exact hv
  · exact h b

theorem seedAll_fullLanes (s : State) : FullLanes (seedAll s) := fun a => by
  rw [seedAll_accOf]
  split <;> simp [seedVec, zeroVec]

theorem redraw_fullLanes (s : State) : FullLanes (redraw s) := fun a => by
  rw [redraw_accOf]
  simp

theorem spoil_fullLanes {s : State} (h : FullLanes s) (a : Word) : FullLanes (spoil a s) := fun k => by
  unfold spoil
  split
  · simp [State.accOf, State.w]
  · exact h k

/-- Lane `j` of ACC[a] after the draws (R236; log entry 6). -/
theorem redraw_lane (s : State) (a : Fin 4) {j : Nat} (hj : j < s.w) :
    lane ((redraw s).accOf a) j = Config.draw (s.draws + 2 + a.val * s.w + j) := by
  rw [redraw_accOf, lane_lanesOf _ hj]

/-- `raise E(code)` on STATUS, as one record (R233). -/
theorem raiseStatus_eq (c : ErrCode) (t : Status) : raiseStatus c t = t.withError c := by
  unfold raiseStatus Status.withError
  cases h : t.err
  · rw [if_neg (by decide), if_neg (by decide)]
  · rw [if_pos rfl, if_pos rfl, ← h]

/-- `raise E(code)` changes STATUS alone (R233). -/
theorem raise_eq (c : ErrCode) (s : State) : raise c s = { s with status := s.status.withError c } := by
  rw [raise, raiseStatus_eq]

/-! ### The steps the commands are made of -/

theorem advance_only (s : State) (n : Nat) : OnlyDatapath s (s.advance n) := .of s _ _ _

theorem setH_only (s : State) (v : Word) : OnlyDatapath s (s.setH v) := .of s _ _ _

theorem setAcc_only (s : State) (a : Fin 4) (v : LaneVec) : OnlyDatapath s (s.setAcc a v) := .of s _ _ _

theorem seedAll_only (s : State) : OnlyDatapath s (seedAll s) := .of s _ _ _

theorem sfoldStep_only (s : State) : OnlyDatapath s (sfoldStep s) :=
  (setH_only ..).trans (advance_only ..)

theorem sfold8Step_only (s : State) : OnlyDatapath s (sfold8Step s) :=
  (setH_only ..).trans (advance_only ..)

theorem vrpiStep_only (s : State) : OnlyDatapath s (vrpiStep s) :=
  (setH_only ..).trans (advance_only ..)

theorem vmacStep_only (a o : Fin 4) (k : StepSel) (s : State) : OnlyDatapath s (vmacStep a o k s) :=
  (setAcc_only ..).trans (advance_only ..)

theorem hredStep_only (m : BitVec 4) (s : State) : OnlyDatapath s (hredStep m s) :=
  setH_only ..

/-! H, ACC and POS after each step: rewrite with these and do not compare a step with its argument by `rfl`, since that
multiplies numerals of 32 bits. -/

@[simp] theorem sfoldStep_h (s : State) : (sfoldStep s).h = 31 * s.h + s.inputByte s.pos.toNat := by
  simp only [sfoldStep, State.advance_h, State.setH_h, pow31_one]
@[simp] theorem sfoldStep_acc (s : State) : (sfoldStep s).acc = s.acc := by
  simp only [sfoldStep, State.advance_acc, State.setH_acc]
@[simp] theorem sfoldStep_pos (s : State) : (sfoldStep s).pos = s.pos + BitVec.ofNat 32 1 := by
  simp only [sfoldStep, State.advance_pos, State.setH_pos]

theorem sfold8Step_h (s : State) : (sfold8Step s).h = chunkFold s := by
  simp only [sfold8Step, State.advance_h, State.setH_h]
@[simp] theorem sfold8Step_acc (s : State) : (sfold8Step s).acc = s.acc := by
  simp only [sfold8Step, State.advance_acc, State.setH_acc]
@[simp] theorem sfold8Step_pos (s : State) : (sfold8Step s).pos = s.pos + BitVec.ofNat 32 8 := by
  simp only [sfold8Step, State.advance_pos, State.setH_pos]

/-- VRPI weights lane `j` of the block with 31^(W-1-j), the lanes of WT(3) (R180). -/
theorem vrpiStep_h (s : State) : (vrpiStep s).h =
    s.h * pow31 s.w + sumTo (fun j => s.inputByte (s.pos.toNat + j) * pow31 (s.w - 1 - j)) s.w := by
  simp only [vrpiStep, State.advance_h, State.setH_h, blockPartial]
  congr 1
  refine sumTo_congr fun j hj => ?_
  rw [State.loadBlock, lane_lanesOf _ hj, weightLane]
  congr 2
  show 4 * s.w - 1 - 3 * s.w - j = _
  omega
@[simp] theorem vrpiStep_acc (s : State) : (vrpiStep s).acc = s.acc := by
  simp only [vrpiStep, State.advance_acc, State.setH_acc]
@[simp] theorem vrpiStep_pos (s : State) : (vrpiStep s).pos = s.pos + BitVec.ofNat 32 s.w := by
  simp only [vrpiStep, State.advance_pos, State.setH_pos]

@[simp] theorem vmacStep_h (a o : Fin 4) (k : StepSel) (s : State) : (vmacStep a o k s).h = s.h := by
  simp only [vmacStep, State.advance_h, State.setAcc_h]
theorem vmacStep_accOf (a o : Fin 4) (k : StepSel) (s : State) (b : Fin 4) : (vmacStep a o k s).accOf b =
    if a = b then lanesOf s.w fun j =>
      lane (s.accOf a) j * stepConst s.w k + lane (s.loadBlock s.pos.toNat) j * weightLane s.w o j
    else s.accOf b := by
  simp only [vmacStep, vmacLanes, State.accOf_advance, State.accOf_setAcc]
@[simp] theorem vmacStep_pos (a o : Fin 4) (k : StepSel) (s : State) :
    (vmacStep a o k s).pos = s.pos + BitVec.ofNat 32 s.w := by
  simp only [vmacStep, State.advance_pos, State.setAcc_pos]

@[simp] theorem hredStep_h (m : BitVec 4) (s : State) : (hredStep m s).h = maskedSum m s := (rfl)
@[simp] theorem hredStep_acc (m : BitVec 4) (s : State) : (hredStep m s).acc = s.acc := (rfl)
@[simp] theorem hredStep_pos (m : BitVec 4) (s : State) : (hredStep m s).pos = s.pos := (rfl)

theorem sfoldStep_fullLanes {s : State} (h : FullLanes s) : FullLanes (sfoldStep s) :=
  h.congr (sfoldStep_acc s) (sfoldStep_only s).platform

theorem sfold8Step_fullLanes {s : State} (h : FullLanes s) : FullLanes (sfold8Step s) :=
  h.congr (sfold8Step_acc s) (sfold8Step_only s).platform

theorem vrpiStep_fullLanes {s : State} (h : FullLanes s) : FullLanes (vrpiStep s) :=
  h.congr (vrpiStep_acc s) (vrpiStep_only s).platform

theorem hredStep_fullLanes {s : State} (h : FullLanes s) (m : BitVec 4) : FullLanes (hredStep m s) :=
  h.congr (hredStep_acc m s) (hredStep_only m s).platform

theorem vmacStep_fullLanes {s : State} (h : FullLanes s) (a o : Fin 4) (k : StepSel) :
    FullLanes (vmacStep a o k s) := fun b => by
  rw [vmacStep_accOf, (vmacStep_only a o k s).w]
  split
  · exact length_lanesOf _ _
  · exact h b

theorem whileFits_succ (n : Nat) (f : State → State) (fuel : Nat) (s : State) :
    whileFits n f (fuel + 1) s = if s.pos.toNat + n ≤ s.len.toNat then whileFits n f fuel (f s) else s := rfl

/-- What a loop's step keeps, the loop keeps. -/
theorem whileFits_induct {P : State → Prop} {n : Nat} {f : State → State} (step : ∀ s, P s → P (f s))
    (fuel : Nat) {s : State} (h : P s) : P (whileFits n f fuel s) := by
  induction fuel generalizing s with
  | zero => exact h
  | succ fuel ih =>
    rw [whileFits_succ]
    by_cases fits : s.pos.toNat + n ≤ s.len.toNat
    · rw [if_pos fits]
      exact ih (step s h)
    · rw [if_neg fits]
      exact h

theorem loopFits_only {n : Nat} {f : State → State} (hf : ∀ s, OnlyDatapath s (f s)) (s : State) :
    OnlyDatapath s (loopFits n f s) :=
  whileFits_induct (P := OnlyDatapath s) (fun t ht => ht.trans (hf t)) _ (.refl s)

theorem loopFits_fullLanes {n : Nat} {f : State → State} (hf : ∀ s, FullLanes s → FullLanes (f s)) {s : State}
    (h : FullLanes s) : FullLanes (loopFits n f s) :=
  whileFits_induct (P := FullLanes) hf _ h

theorem tailStep_only (s : State) : OnlyDatapath s (tailStep s) := loopFits_only sfoldStep_only s

theorem tailStep_fullLanes {s : State} (h : FullLanes s) : FullLanes (tailStep s) :=
  loopFits_fullLanes (fun _ => sfoldStep_fullLanes) h

theorem dualBlock_fullLanes {s : State} (h : FullLanes s) : FullLanes (dualBlock s) :=
  vmacStep_fullLanes (vmacStep_fullLanes h 0 2 .two) 1 3 .two

theorem quadBlock_fullLanes {s : State} (h : FullLanes s) : FullLanes (quadBlock s) :=
  vmacStep_fullLanes (vmacStep_fullLanes (vmacStep_fullLanes (vmacStep_fullLanes h 0 0 .four) 1 1 .four) 2 2 .four)
    3 3 .four

theorem dualBlock_only (s : State) : OnlyDatapath s (dualBlock s) :=
  (vmacStep_only ..).trans (vmacStep_only ..)

theorem quadBlock_only (s : State) : OnlyDatapath s (quadBlock s) :=
  (((vmacStep_only ..).trans (vmacStep_only ..)).trans (vmacStep_only ..)).trans (vmacStep_only ..)

theorem variantBody_only (v : Variant) (s : State) : OnlyDatapath s (variantBody v s) := by
  cases v with
  | scalar => exact tailStep_only s
  | unrolled => exact (loopFits_only sfold8Step_only s).trans (tailStep_only _)
  | rpi => exact (loopFits_only vrpiStep_only s).trans (tailStep_only _)
  | deferred =>
    exact ((loopFits_only (vmacStep_only 0 3 .one) s).trans (hredStep_only ..)).trans (tailStep_only _)
  | dual => exact ((loopFits_only dualBlock_only s).trans (hredStep_only ..)).trans (tailStep_only _)
  | quad => exact ((loopFits_only quadBlock_only s).trans (hredStep_only ..)).trans (tailStep_only _)

theorem variantBody_fullLanes (v : Variant) {s : State} (h : FullLanes s) : FullLanes (variantBody v s) := by
  cases v with
  | scalar => exact tailStep_fullLanes h
  | unrolled => exact tailStep_fullLanes (loopFits_fullLanes (fun _ => sfold8Step_fullLanes) h)
  | rpi => exact tailStep_fullLanes (loopFits_fullLanes (fun _ => vrpiStep_fullLanes) h)
  | deferred =>
    exact tailStep_fullLanes (hredStep_fullLanes
      (loopFits_fullLanes (fun _ h => vmacStep_fullLanes h 0 3 .one) h) _)
  | dual => exact tailStep_fullLanes (hredStep_fullLanes (loopFits_fullLanes (fun _ => dualBlock_fullLanes) h) _)
  | quad => exact tailStep_fullLanes (hredStep_fullLanes (loopFits_fullLanes (fun _ => quadBlock_fullLanes) h) _)

/-! ### Every command, in one form -/

/-- The body of a command; none for a reserved field value. -/
def bodyOf : Instr → Option (State → State)
  | .nop => some id
  | .init => some seedAll
  | .sfold => some sfoldStep
  | .sfold8 => some sfold8Step
  | .vrpi => some vrpiStep
  | .tail => some tailStep
  | .vseed a => some (vseedStep (indexOfField a))
  | .vzero a => some (vzeroStep (indexOfField a))
  | .vmac a o st => (stepOfField st).map fun k => vmacStep (indexOfField a) (indexOfField o) k
  | .hred m => some (hredStep m)
  | .hash v => (variantOfField v).map hashStep

/-- The first input byte a command reads, and how many it reads. -/
def readsOf (s : State) : Instr → Nat × Nat
  | .nop => (0, 0)
  | .init => (0, 0)
  | .sfold => (s.pos.toNat, 1)
  | .sfold8 => (s.pos.toNat, 8)
  | .vrpi => (s.pos.toNat, s.w)
  | .tail => (s.pos.toNat, s.len.toNat - s.pos.toNat)
  | .vseed _ => (0, 0)
  | .vzero _ => (0, 0)
  | .vmac _ _ _ => (s.pos.toNat, s.w)
  | .hred _ => (0, 0)
  | .hash _ => (0, s.len.toNat)

theorem exec_eq (i : Instr) (s : State) :
    exec i s = match bodyOf i with
      | none => .fault .reservedEncoding
      | some f => runReading i (readsOf s i).1 (readsOf s i).2 f s := by
  cases i with
  | vmac a o st =>
    simp only [exec, execVmac, bodyOf]
    cases stepOfField st <;> rfl
  | hash v =>
    simp only [exec, execHash, bodyOf]
    cases variantOfField v <;> rfl
  | _ => rfl

/-- An engine step that answers a next state completed its body or aborted with BUSERR. -/
theorem exec_next {i : Instr} {s t : State} (h : exec i s = .next t) :
    ∃ f, bodyOf i = some f ∧
      ((s.admitsBytes (readsOf s i).1 (readsOf s i).2 = true ∧ t = complete i (f s)) ∨
       (s.admitsBytes (readsOf s i).1 (readsOf s i).2 = false ∧ t = busAbort i s)) := by
  rw [exec_eq] at h
  cases hb : bodyOf i with
  | none => simp [hb] at h
  | some f =>
    refine ⟨f, rfl, ?_⟩
    simp only [hb, runReading] at h
    split at h
    · rename_i hr
      exact .inl ⟨hr, (Host.Outcome.next.inj h).symm⟩
    · rename_i hr
      exact .inr ⟨by simpa using hr, (Host.Outcome.next.inj h).symm⟩

/-- A command whose input bytes are all admitted completes. -/
theorem exec_completes {i : Instr} {s : State} {f : State → State} (hb : bodyOf i = some f)
    (hr : s.admitsBytes (readsOf s i).1 (readsOf s i).2 = true) : exec i s = .next (complete i (f s)) := by
  rw [exec_eq, hb]
  simp only [runReading, hr, if_true]

/-- A command that reads a byte that is not admitted aborts. -/
theorem exec_aborts {i : Instr} {s : State} {f : State → State} (hb : bodyOf i = some f)
    (hr : s.admitsBytes (readsOf s i).1 (readsOf s i).2 = false) : exec i s = .next (busAbort i s) := by
  rw [exec_eq, hb]
  simp [runReading, hr]

/-- Completion of a body with the duty of R97 unbroken: PENDING, BUSY and DONE, and what the body did to H, ACC and
POS. -/
theorem complete_body {s t : State} (h : OnlyDatapath s t) (i : Instr) (hb : s.breached = false) :
    complete i t = { s.finish (retire i s) with h := t.h, acc := t.acc, pos := t.pos } := by
  rw [complete_of_unbroken t i (h.breached.trans hb)]
  conv_lhs => rw [h]
  rfl

theorem bodyOf_wellFormed {i : Instr} (h : i.WellFormed) : ∃ f, bodyOf i = some f := by
  cases i with
  | vmac a o st =>
    have legal : ∀ st : BitVec 2, (st != 3) = true → (stepOfField st).isSome := by decide
    obtain ⟨k, hk⟩ := Option.isSome_iff_exists.1 (legal st h)
    exact ⟨vmacStep (indexOfField a) (indexOfField o) k, by simp [bodyOf, hk]⟩
  | hash v =>
    have legal : ∀ v : BitVec 3, v.toNat ≤ 5 → (variantOfField v).isSome := by decide
    obtain ⟨k, hk⟩ := Option.isSome_iff_exists.1 (legal v (by simpa [Instr.WellFormed, Instr.wellFormed] using h))
    exact ⟨hashStep k, by simp [bodyOf, hk]⟩
  | _ => exact ⟨_, rfl⟩

theorem body_only {i : Instr} {f : State → State} (h : bodyOf i = some f) (s : State) : OnlyDatapath s (f s) := by
  cases i with
  | vmac a o st =>
    obtain ⟨k, -, rfl⟩ := Option.map_eq_some_iff.1 h
    exact vmacStep_only ..
  | hash v =>
    obtain ⟨k, -, rfl⟩ := Option.map_eq_some_iff.1 h
    exact (seedAll_only s).trans (variantBody_only ..)
  | nop => cases h; exact .refl s
  | init => cases h; exact seedAll_only s
  | sfold => cases h; exact sfoldStep_only s
  | sfold8 => cases h; exact sfold8Step_only s
  | vrpi => cases h; exact vrpiStep_only s
  | tail => cases h; exact tailStep_only s
  | vseed a => cases h; exact setAcc_only ..
  | vzero a => cases h; exact setAcc_only ..
  | hred m => cases h; exact hredStep_only ..

theorem body_fullLanes {i : Instr} {f : State → State} (h : bodyOf i = some f) {s : State} (hs : FullLanes s) :
    FullLanes (f s) := by
  cases i with
  | vmac a o st =>
    obtain ⟨k, -, rfl⟩ := Option.map_eq_some_iff.1 h
    exact vmacStep_fullLanes hs _ _ k
  | hash v =>
    obtain ⟨k, -, rfl⟩ := Option.map_eq_some_iff.1 h
    exact variantBody_fullLanes k (seedAll_fullLanes s)
  | nop => cases h; exact hs
  | init => cases h; exact seedAll_fullLanes s
  | sfold => cases h; exact sfoldStep_fullLanes hs
  | sfold8 => cases h; exact sfold8Step_fullLanes hs
  | vrpi => cases h; exact vrpiStep_fullLanes hs
  | tail => cases h; exact tailStep_fullLanes hs
  | vseed a => cases h; exact setAcc_fullLanes hs _ (by simp [seedVec])
  | vzero a => cases h; exact setAcc_fullLanes hs _ (by simp [zeroVec])
  | hred m => cases h; exact hredStep_fullLanes hs m

/-- The next state of a command whose input bytes are all admitted, with the duty of R97 unbroken. -/
theorem exec_result {i : Instr} {s : State} {f : State → State} (hf : bodyOf i = some f)
    (hr : s.admitsBytes (readsOf s i).1 (readsOf s i).2 = true) (hb : s.breached = false) :
    exec i s = .next { s.finish (retire i s) with h := (f s).h, acc := (f s).acc, pos := (f s).pos } := by
  rw [exec_completes hf hr, complete_body (body_only hf s) i hb]

/-! ### The machine's step -/

/-- The engine's turn: it performs the pending command, or there is none. -/
theorem engineTurn_next {s t : State} (h : runTurn (engineTurn s) = .next t) :
    (∃ w i, s.pending = some w ∧ decode w = .ok i ∧ exec i s = .next t) ∨ (s.pending = none ∧ t = s) := by
  unfold engineTurn at h
  cases hp : s.pending with
  | none =>
    rw [hp] at h
    exact .inr ⟨rfl, (Host.Outcome.next.inj h).symm⟩
  | some w =>
    rw [hp] at h
    simp only [runTurn] at h
    cases hd : decode w with
    | error e => rw [hd] at h; cases h
    | ok i => rw [hd] at h; exact .inl ⟨w, i, rfl, hd, h⟩

/-- What one step can be: the engine on the pending word, one of the three outside events, or nothing. -/
theorem step_next {s t : State} (h : step s = .next t) :
    (∃ w i, s.pending = some w ∧ decode w = .ok i ∧ exec i { s with schedule := s.schedule.tail } = .next t) ∨
    (∃ a rest, s.schedule = .host a :: rest ∧ hostAccess a { s with schedule := rest } = .next t) ∨
    (∃ a b rest, s.schedule = .memory a b :: rest ∧ t = storeByte a b { s with schedule := rest }) ∨
    (∃ rest, s.schedule = .reset :: rest ∧ t = resetSignal { s with schedule := rest }) ∨
    (s.pending = none ∧ t = { s with schedule := s.schedule.tail }) := by
  unfold step nextTurn at h
  rcases hs : s.schedule with _ | ⟨e, rest⟩
  · rw [hs] at h
    have same : s = { s with schedule := [] } := by
      cases s
      simp_all
    rcases engineTurn_next h with ⟨w, i, hp, hd, hx⟩ | ⟨hp, ht⟩
    · exact .inl ⟨w, i, hp, hd, by rw [← hx]; exact congrArg (exec i) same.symm⟩
    · exact .inr (.inr (.inr (.inr ⟨hp, ht.trans same⟩)))
  · rw [hs] at h
    cases e with
    | engine =>
      rcases engineTurn_next h with ⟨w, i, hp, hd, hx⟩ | ⟨hp, ht⟩
      · exact .inl ⟨w, i, hp, hd, hx⟩
      · exact .inr (.inr (.inr (.inr ⟨hp, ht⟩)))
    | host a => exact .inr (.inl ⟨a, rest, rfl, h⟩)
    | memory a b => exact .inr (.inr (.inl ⟨a, b, rest, rfl, (Host.Outcome.next.inj h).symm⟩))
    | reset => exact .inr (.inr (.inr (.inl ⟨rest, rfl, (Host.Outcome.next.inj h).symm⟩)))

/-- What a host access that takes effect is: a read or a write of the register at its offset (R87, R89, R90). -/
theorem hostAccess_next {a : HostAccess} {s t : State} (h : hostAccess a s = .next t) :
    a.size = .word ∧ s.platform.phaBase ≤ a.addr ∧ a.addr < s.platform.phaBase + 0x1000 ∧
    (a.addr - s.platform.phaBase) % 4 = 0 ∧
    ((a.kind = .read ∧ t = busRead (Reg.ofOffset s.w (a.addr - s.platform.phaBase)) s) ∨
     (∃ v, a.kind = .write v ∧ t = regWrite (Reg.ofOffset s.w (a.addr - s.platform.phaBase)) v s)) := by
  unfold hostAccess at h
  split at h
  · cases h
  · split at h
    · cases h
    · split at h
      · cases h
      · rename_i h1 h2 h3
        refine ⟨by simpa using h2, by omega, by omega, by simpa using h3, ?_⟩
        cases hk : a.kind with
        | read => rw [hk] at h; exact .inl ⟨rfl, (Host.Outcome.next.inj h).symm⟩
        | write v => rw [hk] at h; exact .inr ⟨v, rfl, (Host.Outcome.next.inj h).symm⟩

end Sys2Proof.Machine
end

