-- ==== Sys2Proof/Laws/Input.lean ====
section
/-! SUPPORT. Effective addresses modulo 2^32, and which input bytes a command finds admitted (spec/20_memory.md R82, R84). -/

namespace Sys2Proof.Machine

/-- The byte at POS sits at BASE + POS. -/
@[simp] theorem ea_pos (s : State) (p : Word) : s.ea p.toNat = s.base + p := by
  simp [State.ea]

/-- An index that wrapped with POS names the same address as the one that did not. -/
theorem ea_wraps (s : State) (p : Word) (k n : Nat) :
    s.ea ((p + BitVec.ofNat 32 k).toNat + n) = s.ea (p.toNat + k + n) := by
  unfold State.ea
  congr 1
  refine BitVec.eq_of_toNat_eq ?_
  simp only [BitVec.toNat_ofNat, BitVec.toNat_add]
  omega

theorem inputByte_wraps (s : State) (p : Word) (k n : Nat) :
    s.inputByte ((p + BitVec.ofNat 32 k).toNat + n) = s.inputByte (p.toNat + k + n) := by
  rw [State.inputByte, State.inputByte, ea_wraps]

theorem admitsBytes_iff (s : State) (lo n : Nat) :
    s.admitsBytes lo n = true ↔ ∀ k, k < n → s.platform.admits (s.ea (lo + k)) = true := by
  induction n with
  | zero => simp [State.admitsBytes]
  | succ n ih =>
    rw [State.admitsBytes, Bool.and_eq_true, ih]
    constructor
    · rintro ⟨h1, h2⟩ k hk
      rcases Nat.lt_succ_iff_lt_or_eq.1 hk with h | rfl
      · exact h1 k h
      · exact h2
    · exact fun h => ⟨fun k hk => h k (by omega), h n (by omega)⟩

/-- A run inside an admitted run is admitted. -/
theorem admitsBytes_sub {s : State} {lo n lo' n' : Nat} (h : s.admitsBytes lo n = true) (h1 : lo ≤ lo')
    (h2 : lo' + n' ≤ lo + n) : s.admitsBytes lo' n' = true := by
  rw [admitsBytes_iff] at h ⊢
  intro k hk
  have := h (lo' + k - lo) (by omega)
  rwa [show lo + (lo' + k - lo) = lo' + k by omega] at this

end Sys2Proof.Machine
end

