-- ==== Sys2Proof/Laws/Loop.lean ====
section
/-! SUPPORT. The block loops of spec/43_hash.md and of TAIL: a loop `while POS + n <= LEN` whose step advances POS by n runs
its step (LEN - POS) / n times (R208, R209). -/

namespace Sys2Proof.Machine

/-- POS advances without wrapping while it stays within LEN (R35). -/
theorem advance_pos_toNat {s : State} {n : Nat} (h : s.pos.toNat + n ≤ s.len.toNat) :
    (s.pos + BitVec.ofNat 32 n).toNat = s.pos.toNat + n := by
  have := s.len.isLt
  rw [BitVec.toNat_add, BitVec.toNat_ofNat, Nat.add_mod_mod, Nat.mod_eq_of_lt (by omega)]

/-- `f` consumes a block of `n` bytes: where the block fits it advances POS by `n` and keeps LEN. -/
def Consumes (n : Nat) (f : State → State) : Prop :=
  ∀ s : State, s.pos.toNat + n ≤ s.len.toNat → (f s).pos.toNat = s.pos.toNat + n ∧ (f s).len = s.len

theorem sfoldStep_consumes : Consumes 1 sfoldStep := fun s h =>
  ⟨by rw [sfoldStep_pos, advance_pos_toNat h], (sfoldStep_only s).len⟩

theorem sfold8Step_consumes : Consumes 8 sfold8Step := fun s h =>
  ⟨by rw [sfold8Step_pos, advance_pos_toNat h], (sfold8Step_only s).len⟩

theorem vrpiStep_consumes {s : State} (h : s.pos.toNat + s.w ≤ s.len.toNat) :
    (vrpiStep s).pos.toNat = s.pos.toNat + s.w ∧ (vrpiStep s).len = s.len :=
  ⟨by rw [vrpiStep_pos, advance_pos_toNat h], (vrpiStep_only s).len⟩

theorem vmacStep_consumes (a o : Fin 4) (k : StepSel) {s : State} (h : s.pos.toNat + s.w ≤ s.len.toNat) :
    (vmacStep a o k s).pos.toNat = s.pos.toNat + s.w ∧ (vmacStep a o k s).len = s.len :=
  ⟨by rw [vmacStep_pos, advance_pos_toNat h], (vmacStep_only a o k s).len⟩

/-- A loop whose step keeps `P` and consumes `n` bytes in every state of `P`. -/
theorem loopFits_eq_iterate {P : State → Prop} {n : Nat} (hn : 0 < n) {f : State → State}
    (hP : ∀ s, P s → P (f s))
    (hf : ∀ s, P s → s.pos.toNat + n ≤ s.len.toNat → (f s).pos.toNat = s.pos.toNat + n ∧ (f s).len = s.len)
    {s : State} (hs : P s) : loopFits n f s = f^[(s.len.toNat - s.pos.toNat) / n] s := by
  suffices run : ∀ fuel (s : State), P s → s.len.toNat - s.pos.toNat ≤ fuel →
      whileFits n f fuel s = f^[(s.len.toNat - s.pos.toNat) / n] s from run _ s hs le_rfl
  intro fuel
  induction fuel with
  | zero =>
    intro s _ h
    rw [show s.len.toNat - s.pos.toNat = 0 by omega, Nat.zero_div]
    rfl
  | succ fuel ih =>
    intro s hs h
    rw [whileFits_succ]
    by_cases fits : s.pos.toNat + n ≤ s.len.toNat
    · obtain ⟨hpos, hlen⟩ := hf s hs fits
      rw [if_pos fits, ih (f s) (hP s hs) (by rw [hpos, hlen]; omega), hpos, hlen,
        show s.len.toNat - s.pos.toNat = s.len.toNat - (s.pos.toNat + n) + n by omega,
        Nat.add_div_right _ hn, Function.iterate_succ_apply]
    · rw [if_neg fits, Nat.div_eq_of_lt (by omega)]
      rfl

/-- What holds before the first pass and is kept by every pass that fits holds after any number of passes that fit, and POS
has moved on by whole blocks. -/
theorem iterate_induct {P : Nat → State → Prop} {n : Nat} {f : State → State} {s : State} (h0 : P 0 s)
    (step : ∀ k t, P k t → t.pos.toNat = s.pos.toNat + k * n → t.len = s.len →
      t.pos.toNat + n ≤ t.len.toNat →
      P (k + 1) (f t) ∧ (f t).pos.toNat = t.pos.toNat + n ∧ (f t).len = t.len)
    {k : Nat} (hk : s.pos.toNat + k * n ≤ s.len.toNat) :
    P k (f^[k] s) ∧ (f^[k] s).pos.toNat = s.pos.toNat + k * n ∧ (f^[k] s).len = s.len := by
  induction k with
  | zero => exact ⟨h0, by simp, rfl⟩
  | succ k ih =>
    obtain ⟨hP, hpos, hlen⟩ := ih (by rw [Nat.add_mul] at hk; omega)
    rw [Function.iterate_succ_apply']
    obtain ⟨h1, h2, h3⟩ := step k _ hP hpos hlen (by rw [hpos, hlen]; rw [Nat.add_mul] at hk; omega)
    exact ⟨h1, by rw [h2, hpos]; ring, h3.trans hlen⟩

end Sys2Proof.Machine
end

