-- ==== Sys2Proof/Laws/Blocks.lean ====
section
/-! SUPPORT. What one macro-block of the vector variants does to the accumulators, said once for the three of them
(spec/42_vector.md R182; spec/43_hash.md R204-R206, R209). -/

namespace Sys2Proof.Machine

theorem vmacStep_w (a o : Fin 4) (k : StepSel) (t : State) : (vmacStep a o k t).w = t.w := (vmacStep_only a o k t).w

theorem vmacStep_accOf_other {a b : Fin 4} (h : a ≠ b) (o : Fin 4) (k : StepSel) (t : State) :
    (vmacStep a o k t).accOf b = t.accOf b := by
  rw [vmacStep_accOf, if_neg h]

/-- Lane `j` of the accumulator a VMAC step writes, in a state whose POS has moved `d` bytes on from `p`. -/
theorem vmacStep_lane {s t : State} (ho : OnlyDatapath s t) {p d : Nat} (hp : t.pos = BitVec.ofNat 32 (p + d))
    (a o : Fin 4) (k : StepSel) {j : Nat} (hj : j < s.w) :
    lane ((vmacStep a o k t).accOf a) j = lane (t.accOf a) j * pow31 (k.blocks * s.w) +
      s.inputByte (p + d + j) * pow31 (4 * s.w - 1 - o.val * s.w - j) := by
  have hj' : j < t.w := by rw [ho.w]; exact hj
  rw [vmacStep_accOf, if_pos rfl, lane_lanesOf _ hj', State.loadBlock, lane_lanesOf _ hj', stepConst, weightLane,
    ho.w]
  congr 2
  rw [inputByte_congr ho.base ho.input, hp]
  simpa using inputByte_wraps s 0 (p + d) j

theorem pos_eq_ofNat (t : State) : t.pos = BitVec.ofNat 32 (t.pos.toNat + 0) := by simp

theorem vmacStep_pos_ofNat (a o : Fin 4) (k : StepSel) {t : State} {p d : Nat} (hp : t.pos = BitVec.ofNat 32 (p + d)) :
    (vmacStep a o k t).pos = BitVec.ofNat 32 (p + (d + t.w)) := by
  rw [vmacStep_pos, hp]
  apply BitVec.eq_of_toNat_eq
  simp [BitVec.toNat_add]
  omega

/-- `f` is a macro-block of `u` vector blocks: it advances accumulators 0 to u - 1 by u blocks, quarter q of the input into
accumulator q, leaves H and the other accumulators, and moves POS on by u * W. -/
structure MacroBlock (s : State) (u : Nat) (f : State → State) : Prop where
  only : ∀ t, OnlyDatapath t (f t)
  h : ∀ t, (f t).h = t.h
  pos : ∀ t, OnlyDatapath s t → t.pos.toNat + u * s.w ≤ t.len.toNat → (f t).pos.toNat = t.pos.toNat + u * s.w
  lanes : ∀ t, OnlyDatapath s t → ∀ (q : Fin 4) (j : Nat), j < s.w → q.val < u →
    lane ((f t).accOf q) j = lane (t.accOf q) j * pow31 (u * s.w) +
      s.inputByte (t.pos.toNat + q.val * s.w + j) * pow31 (u * s.w - 1 - q.val * s.w - j)
  others : ∀ t, ∀ q : Fin 4, u ≤ q.val → (f t).accOf q = t.accOf q

theorem pos_of_ofNat {t u : State} {n : Nat} (h : t.pos.toNat + n ≤ t.len.toNat)
    (hu : u.pos = BitVec.ofNat 32 (t.pos.toNat + n)) : u.pos.toNat = t.pos.toNat + n := by
  have := t.len.isLt
  rw [hu, BitVec.toNat_ofNat, Nat.mod_eq_of_lt (by omega)]

/-- The deferred variant's macro-block (R204). -/
theorem deferredBlock (s : State) : MacroBlock s 1 (vmacStep 0 3 .one) := by
  refine ⟨fun t => vmacStep_only .., fun t => vmacStep_h .., fun t ho fits => ?_, fun t ho q j hj hq => ?_,
    fun t q hq => vmacStep_accOf_other (by rintro rfl; simp at hq) ..⟩
  · rw [(vmacStep_consumes 0 3 .one (s := t) (by rw [ho.w]; omega)).1, ho.w]
    omega
  · obtain rfl : q = 0 := Fin.ext (by simp only [Fin.val_zero]; omega)
    rw [vmacStep_lane ho (pos_eq_ofNat t) 0 3 .one hj, StepSel.blocks, Fin.val_zero]
    congr 3
    · omega
    · show 4 * s.w - 1 - 3 * s.w - j = _
      omega

/-- The dual variant's macro-block (R205). -/
theorem dualMacroBlock (s : State) : MacroBlock s 2 dualBlock := by
  refine ⟨dualBlock_only, fun t => by simp [dualBlock], fun t ho fits => ?_, fun t ho q j hj hq => ?_,
    fun t q hq => ?_⟩
  · have h := vmacStep_pos_ofNat 1 3 .two (vmacStep_pos_ofNat 0 2 .two (pos_eq_ofNat t))
    rw [vmacStep_w, ho.w] at h
    exact pos_of_ofNat fits (by rw [dualBlock, h]; congr 1; omega)
  · have h1 := vmacStep_pos_ofNat 0 2 .two (pos_eq_ofNat t)
    rw [ho.w] at h1
    have o1 := ho.trans (vmacStep_only 0 2 .two t)
    match q, hq with
    | 0, _ =>
      rw [dualBlock, vmacStep_accOf_other (by decide), vmacStep_lane ho (pos_eq_ofNat t) 0 2 .two hj,
        StepSel.blocks, Fin.val_zero]
      congr 3
      · omega
      · show 4 * s.w - 1 - 2 * s.w - j = _
        omega
    | 1, _ =>
      rw [dualBlock, vmacStep_lane o1 h1 1 3 .two hj, vmacStep_accOf_other (by decide), StepSel.blocks, Fin.val_one]
      congr 3
      · omega
      · show 4 * s.w - 1 - 3 * s.w - j = _
        omega
  · rw [dualBlock, vmacStep_accOf_other (by rintro rfl; simp at hq), vmacStep_accOf_other (by rintro rfl; simp at hq)]

/-- The quad variant's macro-block (R206). -/
theorem quadMacroBlock (s : State) : MacroBlock s 4 quadBlock := by
  refine ⟨quadBlock_only, fun t => by simp [quadBlock], fun t ho fits => ?_, fun t ho q j hj hq => ?_,
    fun t q hq => by omega⟩
  · have h := vmacStep_pos_ofNat 3 3 .four (vmacStep_pos_ofNat 2 2 .four (vmacStep_pos_ofNat 1 1 .four
      (vmacStep_pos_ofNat 0 0 .four (pos_eq_ofNat t))))
    simp only [vmacStep_w, ho.w] at h
    exact pos_of_ofNat fits (by rw [quadBlock, h]; congr 1; omega)
  · have h1 := vmacStep_pos_ofNat 0 0 .four (pos_eq_ofNat t)
    have h2 := vmacStep_pos_ofNat 1 1 .four h1
    have h3 := vmacStep_pos_ofNat 2 2 .four h2
    simp only [vmacStep_w, ho.w] at h1 h2 h3
    have o1 := ho.trans (vmacStep_only 0 0 .four t)
    have o2 := o1.trans (vmacStep_only 1 1 .four _)
    have o3 := o2.trans (vmacStep_only 2 2 .four _)
    match q, hq with
    | 0, _ =>
      rw [quadBlock, vmacStep_accOf_other (a := 3) (by decide), vmacStep_accOf_other (a := 2) (by decide),
        vmacStep_accOf_other (a := 1) (by decide), vmacStep_lane ho (pos_eq_ofNat t) 0 0 .four hj, StepSel.blocks,
        Fin.val_zero]
      congr 3
      omega
    | 1, _ =>
      rw [quadBlock, vmacStep_accOf_other (a := 3) (by decide), vmacStep_accOf_other (a := 2) (by decide),
        vmacStep_lane o1 h1 1 1 .four hj, vmacStep_accOf_other (a := 0) (by decide), StepSel.blocks, Fin.val_one]
      congr 3
      omega
    | 2, _ =>
      rw [quadBlock, vmacStep_accOf_other (a := 3) (by decide), vmacStep_lane o2 h2 2 2 .four hj,
        vmacStep_accOf_other (a := 1) (by decide), vmacStep_accOf_other (a := 0) (by decide), StepSel.blocks]
      show _ = _ + s.inputByte (_ + 2 * s.w + j) * pow31 (_ - 2 * s.w - j)
      congr 3
      omega
    | 3, _ =>
      rw [quadBlock, vmacStep_lane o3 h3 3 3 .four hj, vmacStep_accOf_other (a := 2) (by decide),
        vmacStep_accOf_other (a := 1) (by decide), vmacStep_accOf_other (a := 0) (by decide), StepSel.blocks]
      show _ = _ + s.inputByte (_ + 3 * s.w + j) * pow31 (_ - 3 * s.w - j)
      congr 3
      omega

end Sys2Proof.Machine
end

