-- ==== Sys2Proof/Laws/Fold.lean ====
section
/-! SUPPORT. What the shared folds do: the powers of the ROM, the eight-byte chunk, any run of block folds, and the tail
(spec/10_state.md R44; spec/41_scalar.md R162-R165). -/

namespace Sys2Proof.Machine

/-- A ROM entry in closed form (R44). -/
theorem pow31_eq (k : Nat) : pow31 k = BitVec.ofNat 32 (31 ^ k) := by
  induction k with
  | zero => rfl
  | succ k ih =>
    rw [pow31, ih, pow_succ]
    simp [BitVec.ofNat_mul, mul_comm]

/-- The expanded chunk of R162 is the fold over its eight bytes. -/
theorem chunkFold_eq (s : State) : chunkFold s = foldFrom s.h (s.inputWords s.pos.toNat 8) := by
  rw [foldFrom_inputWords]
  simp only [chunkFold, sumTo, Nat.add_zero, Nat.sub_zero]
  norm_num
  ring

/-- SFOLD's recurrence is the fold over one byte. -/
theorem sfoldStep_fold (t : State) : (sfoldStep t).h = foldFrom t.h (t.inputWords t.pos.toNat 1) := by
  simp [inputWords_succ]

/-- `f` folds the next `n` bytes into H, moves POS past them and keeps the accumulators. -/
structure FoldsBlock (n : Nat) (f : State → State) (t : State) : Prop where
  only : OnlyDatapath t (f t)
  acc : (f t).acc = t.acc
  pos : (f t).pos.toNat = t.pos.toNat + n
  h : (f t).h = foldFrom t.h (t.inputWords t.pos.toNat n)

theorem sfoldStep_folds {t : State} (fits : t.pos.toNat + 1 ≤ t.len.toNat) : FoldsBlock 1 sfoldStep t :=
  ⟨sfoldStep_only t, sfoldStep_acc t, (sfoldStep_consumes t fits).1, sfoldStep_fold t⟩

theorem sfold8Step_folds {t : State} (fits : t.pos.toNat + 8 ≤ t.len.toNat) : FoldsBlock 8 sfold8Step t :=
  ⟨sfold8Step_only t, sfold8Step_acc t, (sfold8Step_consumes t fits).1, by rw [sfold8Step_h, chunkFold_eq]⟩

theorem vrpiStep_folds {t : State} (fits : t.pos.toNat + t.w ≤ t.len.toNat) : FoldsBlock t.w vrpiStep t :=
  ⟨vrpiStep_only t, vrpiStep_acc t, (vrpiStep_consumes fits).1, by rw [vrpiStep_h, ← foldFrom_inputWords]⟩

/-- `k` block folds in a row fold `k * n` bytes, where they all fit. -/
theorem iterate_folds {n : Nat} {f : State → State} (s : State)
    (hf : ∀ t, OnlyDatapath s t → t.pos.toNat + n ≤ t.len.toNat → FoldsBlock n f t) {k : Nat}
    (hk : s.pos.toNat + k * n ≤ s.len.toNat) : FoldsBlock (k * n) (f^[k]) s := by
  have start : OnlyDatapath s s ∧ s.acc = s.acc ∧ s.h = foldFrom s.h (s.inputWords s.pos.toNat (0 * n)) :=
    ⟨.refl s, rfl, by simp⟩
  obtain ⟨⟨h1, h2, h3⟩, h4, -⟩ := iterate_induct (n := n) (f := f) (s := s)
    (P := fun k t => OnlyDatapath s t ∧ t.acc = s.acc ∧ t.h = foldFrom s.h (s.inputWords s.pos.toNat (k * n)))
    start (by
      rintro k t ⟨ho, ha, hh⟩ hp hl fits
      obtain ⟨g1, g2, g3, g4⟩ := hf t ho fits
      refine ⟨⟨ho.trans g1, g2.trans ha, ?_⟩, g3, g1.len⟩
      rw [g4, hh, inputWords_congr ho.base ho.input, hp, Nat.add_mul, Nat.one_mul, inputWords_add,
        foldFrom_append]) hk
  exact ⟨h1, h2, h4, h3⟩

/-- TAIL's loop, from a state with POS at or before LEN: it folds every remaining byte and leaves POS at LEN. -/
theorem tailStep_folds {s : State} (h : s.pos.toNat ≤ s.len.toNat) :
    FoldsBlock (s.len.toNat - s.pos.toNat) tailStep s ∧ (tailStep s).pos = s.len := by
  have e : tailStep s = sfoldStep^[s.len.toNat - s.pos.toNat] s := by
    have := loopFits_eq_iterate (P := fun _ => True) (n := 1) (f := sfoldStep) (s := s) (by omega)
      (fun _ _ => trivial) (fun t _ => sfoldStep_consumes t) trivial
    rwa [Nat.div_one] at this
  obtain ⟨h1, h2, h3, h4⟩ := iterate_folds (f := sfoldStep) (n := 1) s (fun _ _ fits => sfoldStep_folds fits)
    (k := s.len.toNat - s.pos.toNat) (by omega)
  rw [← e] at h1 h2 h3 h4
  rw [Nat.mul_one] at h3 h4
  exact ⟨⟨h1, h2, h3, h4⟩, BitVec.eq_of_toNat_eq (by rw [h3]; omega)⟩

end Sys2Proof.Machine
end

