-- ==== Sys2Proof/Laws/PerInstr.lean ====
section
/-! SUPPORT. One fact for every command as syntax: its word fits its row of the opcode map, whatever its operands
(spec/30_encoding.md R112-R117). -/

namespace Sys2Proof.Laws.EncodesItsRow

/-- The word carries the row's OPC, and the row's mask and match fit it. -/
def Statement (i : Instr) : Prop :=
  mnemonicOf ((encode i).extractLsb' 0 8) = some i.mnemonic ∧
  encode i &&& maskWord i.mnemonic = matchWord i.mnemonic

theorem nop : Statement .nop := by unfold Statement; decide
theorem init : Statement .init := by unfold Statement; decide
theorem sfold : Statement .sfold := by unfold Statement; decide
theorem sfold8 : Statement .sfold8 := by unfold Statement; decide
theorem vrpi : Statement .vrpi := by unfold Statement; decide
theorem tail : Statement .tail := by unfold Statement; decide

theorem vseed : ∀ a, Statement (.vseed a) := by unfold Statement; decide
theorem vzero : ∀ a, Statement (.vzero a) := by unfold Statement; decide
theorem vmac : ∀ a o s, Statement (.vmac a o s) := by unfold Statement; decide
theorem hred : ∀ m, Statement (.hred m) := by unfold Statement; decide
theorem hash : ∀ v, Statement (.hash v) := by unfold Statement; decide

end Sys2Proof.Laws.EncodesItsRow
end

