-- ==== Sys2Proof/Laws/Uses.lean ====
section
/-! SUPPORT. What a byte of the input memory that changes can do to the registers, and what still comes from an earlier
command (spec/20_memory.md R97; spec/43_hash.md R210; log entries 7 and 8). -/

namespace Sys2Proof.Machine

/-! ### Marks -/

/-- After a command with the duty of R97 broken, every lane comes from it. -/
theorem Marks.all_lane {w j : Nat} (hj : j < w) (a : Fin 4) : (Marks.all w).lane a j = true := by
  simp [Marks.lane, Marks.all, hj]

theorem Marks.all_any (w : Nat) : (Marks.all w).any = true := (rfl)

theorem Marks.none_any : Marks.none.any = false := by decide

@[simp] theorem Marks.dropH_h (m : Marks) : m.dropH.h = false := (rfl)
@[simp] theorem Marks.dropPos_pos (m : Marks) : m.dropPos.pos = false := (rfl)

@[simp] theorem Marks.dropLane_lane (m : Marks) (a : Fin 4) (j : Nat) : (m.dropLane a j).lane a j = false := by
  simp only [Marks.lane, Marks.dropLane, Marks.setAcc, Vector.getElem_set_self, List.getD_eq_getElem?_getD,
    List.getElem?_set_self']
  cases m.acc[a.val][j]? <;> rfl

/-! ### Marking again -/

/-- A register that `f` clears in every use is spoiled by no byte. -/
theorem State.spoils_remark (s : State) (a : Word) {f : Marks → Marks} {g : Marks → Bool} (h : ∀ m, g (f m) = false) :
    (s.remark f).spoils a g = false := by
  simp only [State.spoils, State.remark_uses, List.any_eq_false, List.mem_filter, List.mem_map]
  rintro u ⟨⟨v, -, rfl⟩, -⟩
  simp [h]

/-- INIT and HASH depend on no earlier command (R141, R200, R210): only the bytes they read themselves stay in use. -/
theorem retire_uses_of_seed {i : Instr} (h : ∀ w m, carry w i m = .none) (s : State) :
    (retire i s).uses = s.reading.map fun r => ⟨r, .all s.w⟩ := by
  have none : (s.remark (carry s.w i)).uses = [] := by
    simp only [State.remark_uses, List.filter_eq_nil_iff, List.mem_map]
    rintro u ⟨v, -, rfl⟩
    simp [h, Marks.none_any]
  rw [retire_uses, none, List.append_nil]

/-- A byte the command read spoils every register after it, until the host observes BUSY = 0 (R97). -/
theorem retire_spoils {i : Instr} {s : State} {a : Word} (h : s.reading.any (fun r => r.has a) = true)
    {g : Marks → Bool} (hg : g (.all s.w) = true) : (retire i s).spoils a g = true := by
  obtain ⟨r, hr, ha⟩ := List.any_eq_true.1 h
  simp only [State.spoils, retire_uses, List.any_append, List.any_map, Bool.or_eq_true, List.any_eq_true]
  exact .inl ⟨r, hr, by simp [ha, hg]⟩

/-! ### The byte at an address changes -/

theorem spoil_h_of_not {s : State} {a : Word} (h : s.spoils a Marks.h = false) : (spoil a s).h = s.h := by
  unfold spoil
  split
  · simp only [h, Bool.false_eq_true, if_false]
  · rfl

theorem spoil_pos_of_not {s : State} {a : Word} (h : s.spoils a Marks.pos = false) : (spoil a s).pos = s.pos := by
  unfold spoil
  split
  · simp only [h, Bool.false_eq_true, if_false]
  · rfl

theorem spoil_lane_of_not {s : State} {a : Word} {k : Fin 4} {j : Nat} (hj : j < s.w)
    (h : s.spoils a (fun m => m.lane k j) = false) : lane ((spoil a s).accOf k) j = lane (s.accOf k) j := by
  unfold spoil
  split
  · simp only [State.accOf, Vector.getElem_ofFn]
    rw [lane_lanesOf _ hj]
    simp only [Fin.eta, h, Bool.false_eq_true, if_false]
  · rfl

/-- A spoiled POS stays where the pending command passes its RANGE check (R237). -/
theorem spoil_rangeOk {s : State} {w : Word} {i : Instr} (hp : s.pending = some w) (hd : decode w = .ok i)
    (hr : rangeOk s i = true) (a : Word) : rangeOk (spoil a s) i = true := by
  unfold rangeOk at hr ⊢
  rw [spoil_w, spoil_len]
  cases hn : byteCount s.w i with
  | none => rfl
  | some n =>
    rw [hn] at hr
    simp only [decide_eq_true_eq] at hr ⊢
    have limit : posLimit s = some (s.len.toNat - n) := by
      rw [posLimit, hp]
      simp only [hd, hn, Option.map_some]
    have drawn : (drawPos s).toNat + n ≤ s.len.toNat := by
      have small : (Config.draw (s.draws + 1)).toNat % (s.len.toNat - n + 1) < s.len.toNat - n + 1 :=
        Nat.mod_lt _ (by omega)
      have bound := s.len.isLt
      rw [drawPos, limit]
      simp only [BitVec.toNat_ofNat]
      rw [Nat.mod_eq_of_lt (a := _ % _) (by omega)]
      omega
    unfold spoil
    split
    · simp only
      split
      · exact drawn
      · exact hr
    · exact hr

theorem spoil_reading_nil {s : State} (h : s.reading = []) (a : Word) : (spoil a s).reading = [] := by
  unfold spoil
  split
  · simp [h]
  · exact h

/-- A byte that the pending command does not read: only what comes from performed commands can change with it. -/
theorem storeByte_of_not_reading {s : State} {a : Word} (b : Byte) (h : s.reading.any (fun r => r.has a) = false) :
    storeByte a b s = spoil a { s with input := writeCell s.input a.toNat b } :=
  if_neg (by simp [h])

/-- A byte that the pending command reads: the duty of R97 is broken for it as well. -/
theorem storeByte_of_reading {s : State} {a : Word} (b : Byte) (h : s.reading.any (fun r => r.has a) = true) :
    storeByte a b s = { spoil a { s with input := writeCell s.input a.toNat b } with breached := true } :=
  if_pos h

end Sys2Proof.Machine
end

