-- ==== Sys2Proof/Laws/Window.lean ====
section
/-! SUPPORT. What a host access can do to the state (spec/20_memory.md R89-R94; spec/60_exceptions.md R234, R238). -/

namespace Sys2Proof.Machine

/-- A CMD write is rejected with one of the three acceptance errors, or accepted (R234). -/
theorem submit_cases (w : Word) (s : State) :
    (∃ c, c ≠ .none ∧ submit w s = raise c s) ∨
    (s.status.busy = false ∧ ∃ i, decode w = .ok i ∧ rangeOk s i = true ∧ submit w s = accept w i s) := by
  unfold submit
  split
  · exact .inl ⟨.busy, by decide, rfl⟩
  · rename_i hb
    cases decode w with
    | error e => exact .inl ⟨.illegal, by decide, rfl⟩
    | ok i =>
      by_cases hr : rangeOk s i
      · exact .inr ⟨by simpa using hb, i, rfl, hr, if_pos hr⟩
      · exact .inl ⟨.range, by decide, if_neg hr⟩

/-- A dropped write raises BUSY; another takes effect (R90, R92). -/
theorem writeIdle_cases (set : State → State) (s : State) :
    (s.status.busy = true ∧ writeIdle set s = raise .busy s) ∨
    (s.status.busy = false ∧ writeIdle set s = set s) := by
  unfold writeIdle
  cases h : s.status.busy <;> simp

/-- A read changes the host's data, the draws and the duty of R97, and no register (R89, R96). -/
theorem busRead_only (r : Reg) (s : State) :
    busRead r s = { s with
      readData := (busRead r s).readData, draws := (busRead r s).draws
      reading := (busRead r s).reading, uses := (busRead r s).uses } := by
  unfold busRead
  cases s.status.busy && r.isDatapath
  · rfl
  · rfl

/-- An aligned read inside the window is RegRead of the register at its offset (R87, R89). -/
theorem hostAccess_read {s : State} {off : Nat} (h : off < 0x1000) (aligned : off % 4 = 0) :
    hostAccess (s.accessAt off .read) s = .next (busRead (Reg.ofOffset s.w off) s) := by
  unfold hostAccess
  rw [if_neg (by simp only [State.accessAt]; omega), if_neg (by simp [State.accessAt]),
    if_neg (by simp only [State.accessAt]; omega)]
  simp [State.accessAt]

/-- An aligned write inside the window is RegWrite of the register at its offset (R87, R90). -/
theorem hostAccess_write {s : State} {off : Nat} (v : Word) (h : off < 0x1000) (aligned : off % 4 = 0) :
    hostAccess (s.accessAt off (.write v)) s = .next (regWrite (Reg.ofOffset s.w off) v s) := by
  unfold hostAccess
  rw [if_neg (by simp only [State.accessAt]; omega), if_neg (by simp [State.accessAt]),
    if_neg (by simp only [State.accessAt]; omega)]
  simp [State.accessAt]

/-! ### The register map (R49) -/

theorem ofOffset_first {w off : Nat} (h : off < 0x400) : Reg.ofOffset w off = .named off := if_pos h

/-- The first area is reserved above H. -/
theorem named_above {off : Nat} (h : 0x020 ≤ off) : Reg.named off = .reserved := by
  unfold Reg.named
  split <;> first | rfl | omega

theorem ofOffset_low {w off : Nat} (h1 : 0x020 ≤ off) (h2 : off < 0x400) : Reg.ofOffset w off = .reserved := by
  rw [ofOffset_first h2, named_above h1]

theorem ofOffset_acc {w : Nat} (a : Fin 4) {j : Nat} (hj : j < 64) :
    Reg.ofOffset w (0x400 + 0x100 * a.val + 4 * j) = if j < w then .acc a j else .reserved := by
  have hlane : (0x100 * a.val + 4 * j) % 0x100 / 4 = j := by omega
  have hslot : Fin.ofNat 4 ((0x100 * a.val + 4 * j) / 0x100) = a := Fin.ext (by simp only [Fin.ofNat]; omega)
  have second : Reg.ofOffset w (0x400 + 0x100 * a.val + 4 * j) = .inAcc w (0x100 * a.val + 4 * j) := by
    simp only [Reg.ofOffset, Nat.add_assoc, Nat.add_sub_cancel_left]
    split_ifs <;> first | rfl | omega
  rw [second, Reg.inAcc, hlane, hslot]

theorem ofOffset_pow {w k : Nat} : Reg.ofOffset w (0x800 + 4 * k) = if k ≤ 4 * w then .pow k else .reserved := by
  have third : Reg.ofOffset w (0x800 + 4 * k) = .inRom w (4 * k) := by
    simp only [Reg.ofOffset, Nat.add_sub_cancel_left]
    split_ifs <;> first | rfl | omega
  rw [third, Reg.inRom, Nat.mul_div_cancel_left k (by decide)]

/-- CMD and STATUS stand in the first area alone. -/
theorem ofOffset_rest {w off : Nat} (h : 0x400 ≤ off) :
    Reg.ofOffset w off ≠ .cmd ∧ Reg.ofOffset w off ≠ .status := by
  simp only [Reg.ofOffset, Reg.inAcc, Reg.inRom, if_neg (Nat.not_lt.2 h)]
  split_ifs <;> exact ⟨nofun, nofun⟩

/-- Only the offset 0x00C of the first area is CMD, and only 0x008 STATUS. -/
theorem named_cmd_status (off : Nat) :
    (Reg.named off = .cmd → off = 0x00C) ∧ (Reg.named off = .status → off = 0x008) := by
  unfold Reg.named
  split <;> simp

/-- Only the offset 0x00C of the window is CMD. -/
theorem ofOffset_cmd {w off : Nat} : Reg.ofOffset w off = .cmd ↔ off = 0x00C := by
  refine ⟨fun h => ?_, fun h => h ▸ rfl⟩
  by_cases first : off < 0x400
  · exact (named_cmd_status off).1 (ofOffset_first first ▸ h)
  · exact absurd h (ofOffset_rest (by omega)).1

/-- Only the offset 0x008 of the window is STATUS. -/
theorem ofOffset_status {w off : Nat} : Reg.ofOffset w off = .status ↔ off = 0x008 := by
  refine ⟨fun h => ?_, fun h => h ▸ rfl⟩
  by_cases first : off < 0x400
  · exact (named_cmd_status off).2 (ofOffset_first first ▸ h)
  · exact absurd h (ofOffset_rest (by omega)).2

end Sys2Proof.Machine
end

