-- ==== Sys2Proof/Tests/Slice0.lean ====
section
/-! SUPPORT. Tests: the well-formedness smoke, words written out from spec/30_encoding.md, single steps from the vectors of
spec/95_test_vectors.md, and for every obligation with hypotheses a state and operands that meet them together. -/

namespace Sys2Proof.Tests

open Sys2Proof Sys2Proof.Machine

/-! ### Small states -/

def lanesTwo : LaneCount := ⟨2, by decide, by decide⟩

/-- The reset state with W = 2. -/
def resetTwo : State :=
  { State.reset with
    platform := { Platform.default with lanes := lanesTwo }
    acc := #v[seedVec 2, zeroVec 2, zeroVec 2, zeroVec 2] }

/-- Bytes placed from an address on. -/
def placed (first : Nat) : List Byte → List Host.Cell
  | [] => []
  | b :: rest => (first, b) :: placed (first + 1) rest

/-- A state with bytes at BASE and LEN set to their number. -/
def withInput (s : State) (first : Nat) (bytes : List Byte) : State :=
  { s with base := BitVec.ofNat 32 first, len := BitVec.ofNat 32 bytes.length, input := placed first bytes }

/-- The first nine bytes of PAT (95_test_vectors.md). -/
def pat9 : List Byte := [0x0B, 0x30, 0x55, 0x7A, 0x9F, 0xC4, 0xE9, 0x0E, 0x33]

/-- The outcome is a next state that passes the check. -/
def gives (o : Host.Outcome State Fault Refusal) (check : State → Bool) : Bool :=
  match o with
  | .next t => check t
  | .fault _ => false
  | .refused _ => false

/-- A host write, then the outcome's check. -/
def afterWrite (s : State) (off : Nat) (v : Word) (check : State → Bool) : Bool :=
  gives (hostAccess (s.accessAt off (.write v)) s) check

/-- What a host read returns. -/
def readBack (s : State) (off : Nat) : Option Word :=
  match hostAccess (s.accessAt off .read) s with
  | .next t => t.readData
  | .fault _ => none
  | .refused _ => none

/-! ### Well-formedness and decoding -/

/-- A term with each reserved field value of R118 is refused, and its neighbours are not. -/
theorem test_wellFormed_smoke :
    ¬ (Instr.vmac 0 3 3).WellFormed ∧ ¬ (Instr.hash 6).WellFormed ∧ ¬ (Instr.hash 7).WellFormed ∧
    (Instr.vmac 3 3 2).WellFormed ∧ (Instr.hash 5).WellFormed := by decide

/-- Format N (R112): bits 31:8 are 0, OPC is 0x00 to 0x05. -/
theorem test_decode_format_n :
    decode 0b00000000000000000000000000000000 = .ok .nop ∧ decode 0b00000000000000000000000000000001 = .ok .init ∧
    decode 0b00000000000000000000000000000010 = .ok .sfold ∧ decode 0b00000000000000000000000000000011 = .ok .sfold8 ∧
    decode 0b00000000000000000000000000000100 = .ok .vrpi ∧ decode 0b00000000000000000000000000000101 = .ok .tail := by
  decide

/-- Format A (R113): A at 9:8. -/
theorem test_decode_format_a :
    decode 0b00000000000000000000001000001000 = .ok (.vseed 2) ∧
    decode 0b00000000000000000000001100001001 = .ok (.vzero 3) := by decide

/-- Format V (R114): S at 13:12, O at 11:10, A at 9:8. -/
theorem test_decode_format_v :
    decode 0b00000000000000000010011100010000 = .ok (.vmac 3 1 2) ∧
    decode 0b00000000000000000000110000010000 = .ok (.vmac 0 3 0) := by decide

/-- Format M (R115): M at 11:8. Format H (R116): V at 10:8. -/
theorem test_decode_formats_m_h :
    decode 0b00000000000000000000101000011000 = .ok (.hred 0b1010) ∧
    decode 0b00000000000000000000010000100000 = .ok (.hash 4) := by decide

/-- The ILLEGAL rows of table V-DEC. -/
theorem test_decode_illegal :
    decode 0x00000409 = .error .reservedBit ∧ decode 0x00000100 = .error .reservedBit ∧
    decode 0x00000102 = .error .reservedBit ∧ decode 0x00001008 = .error .reservedBit ∧
    decode 0x00000006 = .error .unassignedOpcode ∧ decode 0x00003010 = .error .reservedField ∧
    decode 0x00004010 = .error .reservedBit ∧ decode 0x00000620 = .error .reservedField ∧
    decode 0x00000720 = .error .reservedField ∧ decode 0x80000000 = .error .reservedBit ∧
    decode 0xFFFFFFFF = .error .unassignedOpcode := by decide

/-- The pipeline's numbering of a row's bits. -/
theorem test_decodeTableWord :
    decodeTableWord 32 0x1810 = some (.vmac 0 2 1) ∧ decodeTableWord 32 0x620 = none ∧
    decodeTableWord 64 0x100000000 = none := by decide

/-! ### Setup commands (V-SET) -/

/-- V-SET-1. -/
theorem test_nop : gives (exec .nop { resetTwo with h := 0x12345678 })
    (fun t => t.h == 0x12345678 && statusWord t.status == 0x00000002) = true := by decide

/-- V-SET-2. -/
theorem test_init : gives (exec .init { State.reset with h := 0x12345678, pos := 5, base := 0x1000, len := 9, acc :=
      #v[zeroVec 8, zeroVec 8, setLane 8 (zeroVec 8) 0 7, zeroVec 8] })
    (fun t => t.h == 1 && t.pos == 0 && t.base == 0x1000 && t.len == 9 &&
      t.accOf 0 == [1, 0, 0, 0, 0, 0, 0, 0] && t.accOf 2 == zeroVec 8) = true := by decide

/-- V-SET-3. -/
theorem test_vseed : gives (exec (.vseed 1) { resetTwo with acc := #v[[3, 4], [0xDEADBEEF, 5], [6, 7], [8, 9]] })
    (fun t => t.acc == #v[[3, 4], [1, 0], [6, 7], [8, 9]]) = true := by decide

/-- V-SET-4. -/
theorem test_vzero : gives (exec (.vzero 0) { resetTwo with acc := #v[[1, 0], [5, 6], [7, 8], [9, 10]] })
    (fun t => t.acc == #v[[0, 0], [5, 6], [7, 8], [9, 10]]) = true := by decide

/-! ### Scalar folds (V-SFOLD, V-SFOLD8, V-TAIL) -/

/-- V-SFOLD row 9. -/
theorem test_sfold : gives (exec .sfold { withInput resetTwo 0 [0x01] with h := 0x12345678 })
    (fun t => t.h == 0x34567889 && t.pos == 1) = true := by decide

/-- V-SFOLD row 10: byte 0xFE is -2. -/
theorem test_sfold_signed : gives (exec .sfold { withInput resetTwo 0 [0xFE] with h := 0x94446F01 })
    (fun t => t.h == 0xF449711D && !t.status.err) = true := by decide

/-- V-SFOLD8-W: row 1 with W = 2. -/
theorem test_sfold8 : gives (exec .sfold8 (withInput resetTwo 0 [1, 2, 3, 4, 5, 6, 7, 8]))
    (fun t => t.h == 0x6B4B5785 && t.pos == 8) = true := by decide

/-- V-SFOLD8 row 4. -/
theorem test_sfold8_signed : gives
    (exec .sfold8 { withInput resetTwo 0 (List.replicate 8 0xFF) with h := 0xFFFFFFFF })
    (fun t => t.h == 0xCD30C07F) = true := by decide

/-- V-TAIL row 1. -/
theorem test_tail : gives (exec .tail { withInput resetTwo 0 [0x61, 0x62, 0x63] with h := 0x80, pos := 1 })
    (fun t => t.h == 0x0001ECC1 && t.pos == 3) = true := by decide

/-- V-TAIL row 4: no byte left. -/
theorem test_tail_empty : gives (exec .tail { withInput resetTwo 0 [0x61, 0x62, 0x63] with h := 0xABCDEF01, pos := 3 })
    (fun t => t.h == 0xABCDEF01 && t.pos == 3 && t.status.done) = true := by decide

/-! ### Lane commands (V-VRPI, V-VMAC, V-HRED) -/

/-- V-VRPI row 2. -/
theorem test_vrpi : gives (exec .vrpi (withInput resetTwo 0 [0x80, 0x7F]))
    (fun t => t.h == 0xFFFFF4C0 && t.pos == 2 && t.acc == resetTwo.acc) = true := by decide

/-- V-VMAC row 5: `vmac acc3, wt1, st4`. -/
theorem test_vmac : gives (exec (.vmac 3 1 2) (withInput resetTwo 0 [0x05, 0xFB]))
    (fun t => t.accOf 3 == [0x08883B1B, 0xFFB98A7B] && t.pos == 2 && t.h == 1 && t.accOf 0 == [1, 0]) = true := by
  decide

/-- V-VMAC row 6: lanes wrap on their own. -/
theorem test_vmac_wraps : gives (exec (.vmac 2 3 0)
      { withInput resetTwo 0 [0x05, 0xFB] with acc := #v[[1, 0], [0, 0], [0xFFFFFFFF, 0x80000000], [0, 0]] })
    (fun t => t.accOf 2 == [0xFFFFFCDA, 0x7FFFFFFB]) = true := by decide

/-- The accumulators of V-HRED. -/
def hredState : State :=
  { resetTwo with acc := #v[[1, 2], [0xFFFFFFFF, 0x10], [0x80000000, 0x80000000], [7, 0]] }

/-- V-HRED, M = 0b0101 and M = 0b1000. -/
theorem test_hred : (gives (exec (.hred 0b0101) hredState) (fun t => t.h == 3 && t.acc == hredState.acc) &&
    gives (exec (.hred 0b1000) hredState) (fun t => t.h == 7)) = true := by decide

/-- V-HRED, M = 0b1111 and M = 0. -/
theorem test_hred_ends : (gives (exec (.hred 0b1111) hredState) (fun t => t.h == 0x19) &&
    gives (exec (.hred 0) hredState) (fun t => t.h == 0)) = true := by decide

/-! ### Whole-hash command -/

/-- Program P4: `hash quad` on PAT(9) with W = 2. -/
theorem test_hash_quad : gives (exec (.hash 5) (withInput resetTwo 0 pat9))
    (fun t => t.h == 0x28A105BE && t.pos == 9 && t.acc == #v[[0x0AF15C96, 0xEB2B1C30], [0x910BECCB, 0x06B7337A],
      [0xFFD3E801, 0xFFFF1EC4], [0xFFFFFD37, 0x0000000E]]) = true := by decide

/-- V-HASH-2 and V-HASH-8, L = 9: every variant gives one hash, whatever W. -/
theorem test_hash_variants : ∀ v ∈ [0, 1, 2, 3, 4, 5],
    (gives (exec (.hash v) (withInput resetTwo 0 pat9)) (fun t => t.h == 0x28A105BE) &&
     gives (exec (.hash v) (withInput State.reset 0 pat9)) (fun t => t.h == 0x28A105BE)) = true := by decide

/-- R82: a buffer continues at address 0, and its bytes are sign-extended. -/
theorem test_input_wraps :
    ({ resetTwo with base := 0xFFFFFFFF, input := [(0, 0x80), (0xFFFFFFFF, 0x10)] } : State).inputWords 0 2 =
      [0x00000010, 0xFFFFFF80] := by decide

/-! ### Errors, status and interrupt (V-ERR, V-IRQ) -/

/-- V-ERR-1 and V-TAIL row 5: RANGE. -/
theorem test_range : (afterWrite { resetTwo with len := 3 } 0x00C 0x00000003
      (fun t => statusWord t.status == 0x00000024 && t.pending == none) &&
    afterWrite { resetTwo with len := 3, pos := 4 } 0x00C 0x00000005
      (fun t => statusWord t.status == 0x00000024)) = true := by decide

/-- V-ERR-2 and V-ERR-3: the byte count of VRPI and VMAC is W, and POS + 1 = LEN is accepted for SFOLD. -/
theorem test_range_boundary : (afterWrite { State.reset with len := 7 } 0x00C 0x00000004
      (fun t => statusWord t.status == 0x00000024) &&
    afterWrite { State.reset with len := 7 } 0x00C 0x00000C10 (fun t => statusWord t.status == 0x00000024) &&
    afterWrite { State.reset with pos := 2, len := 3 } 0x00C 0x00000002
      (fun t => t.pending == some 2 && statusWord t.status == 0x00000001)) = true := by decide

/-- The status of V-ERR-5. -/
def illegalSeen : Status := { busy := false, done := false, err := true, code := .illegal }

/-- V-ERR-4, V-ERR-5 and V-ERR-6. -/
theorem test_illegal : (afterWrite resetTwo 0x00C 0x00000102 (fun t => statusWord t.status == 0x00000014) &&
    afterWrite { resetTwo with status := illegalSeen } 0x00C 0x00003010
      (fun t => statusWord t.status == 0x00000014) &&
    afterWrite { resetTwo with status := illegalSeen } 0x008 0x00000004
      (fun t => statusWord t.status == 0)) = true := by decide

/-- A state waiting for the engine: NOP is pending. -/
def waiting : State :=
  { resetTwo with pending := some 0, status := { busy := true, done := false, err := false, code := .none } }

/-- V-ERR-7, V-ERR-8 and V-ERR-9. -/
theorem test_busy : (afterWrite waiting 0x014 5 (fun t => t.len == 0 && statusWord t.status == 0x00000035) &&
    afterWrite waiting 0x004 1 (fun t => t.ie && statusWord t.status == 0x00000001) &&
    afterWrite waiting 0x00C 1 (fun t => t.pending == some 0 && statusWord t.status == 0x00000035)) = true := by
  decide

/-- The platform of V-ERR-10: addresses 0xFFFFFFF0 and up are admitted. -/
def highOnly : State :=
  { resetTwo with
    platform := { Platform.default with lanes := lanesTwo, admitted := [⟨0xFFFFFFF0, 16⟩] }
    base := 0xFFFFFFFE
    input := [(0xFFFFFFFE, 0x10), (0xFFFFFFFF, 0x20)] }

/-- V-ERR-10 and V-ERR-11. -/
theorem test_busErr : (gives (exec (.hash 0) { highOnly with len := 4 })
      (fun t => statusWord t.status == 0x00000044 && t.len == 4 && t.base == 0xFFFFFFFE) &&
    gives (exec (.hash 0) { highOnly with len := 2 })
      (fun t => statusWord t.status == 0x00000002 && t.h == 0x000005D1)) = true := by decide

/-- V-IRQ-1, V-IRQ-2 and V-IRQ-3. -/
theorem test_irq : (gives (exec .nop { resetTwo with ie := true }) (fun t => t.irq) &&
    afterWrite { resetTwo with ie := true, status := { busy := false, done := true, err := false, code := .none } } 0x008 2
      (fun t => !t.irq && statusWord t.status == 0) &&
    !({ resetTwo with status := illegalSeen } : State).irq) = true := by decide

/-! ### Register window (V-REG) -/

/-- V-REG-1 to V-REG-3, V-REG-5 to V-REG-7. -/
theorem test_reads : readBack State.reset 0x000 = some 0x001F0408 ∧ readBack resetTwo 0x000 = some 0x001F0402 ∧
    readBack State.reset 0x820 = some 0x94446F01 ∧ readBack State.reset 0x884 = some 0 ∧
    readBack State.reset 0x00C = some 0 ∧ readBack State.reset 0x020 = some 0 := by decide

/-- V-REG-4, V-REG-8 and V-REG-9. -/
theorem test_writes : (afterWrite State.reset 0x820 0 (fun t => readBack t 0x820 == some 0x94446F01) &&
    afterWrite State.reset 0x50C 0xCAFEF00D (fun t => readBack t 0x50C == some 0xCAFEF00D) &&
    afterWrite State.reset 0x420 5 (fun t => readBack t 0x420 == some 0)) = true := by decide

/-- V-REG-10. -/
theorem test_reset_reads : readBack State.reset 0x01C = some 1 ∧ readBack State.reset 0x400 = some 1 ∧
    readBack State.reset 0x404 = some 0 ∧ readBack State.reset 0x500 = some 0 ∧
    readBack State.reset 0x008 = some 0 := by decide

/-- A command word placed by the pipeline is the first thing that runs after reset. -/
theorem test_withFetchWord : gives (step (State.reset.withFetchWord 32 0x00000209))
    (fun t => t.pending == none && t.status.done) = true := by decide

/-! ### Witnesses: every obligation's hypotheses are met by a concrete state and operands, each clause by its own -/

/-- PAT(9) at address 0, W = 2, nothing done yet. -/
def loaded : State := withInput resetTwo 0 pat9

/-- As `loaded`, where no input address answers. -/
def unanswered : State := { loaded with platform := { Platform.default with lanes := lanesTwo, admitted := [] } }

/-- As `loaded`, with the duty of R97 broken. -/
def spoiled : State := { loaded with breached := true }

/-- A state with an error recorded and nothing pending. -/
def failed : State := { loaded with status := illegalSeen }

/-- A state whose next event is `e`. -/
def facing (e : Event) (s : State) : State := { s with schedule := [e] }

theorem witness_DecodeOfEncodeIsTheCommand : (Instr.vmac 3 3 2).WellFormed ∧ (Instr.hash 5).WellFormed := by decide

theorem witness_EncodeOfDecodeIsTheWord : decode 0x00002F10 = .ok (.vmac 3 3 2) := by decide

theorem witness_ReservedFieldsAreIllegal : loaded.status.busy = false ∧
    ((0x00003F10 : Word).extractLsb' 0 8 = 0x10 ∧ (0x00003F10 : Word).extractLsb' 12 2 = 3) ∧
    ((0x00000620 : Word).extractLsb' 0 8 = 0x20 ∧ (0x00000620 : Word).extractLsb' 8 3 = 6) ∧
    ((0xFFFFFF20 : Word).extractLsb' 0 8 = 0x20 ∧ (0xFFFFFF20 : Word).extractLsb' 8 3 = 7) := by decide

/-- Each row's OPC, the bits its format uses, and a word whose only 1 outside them is the lowest such bit. -/
theorem witness_ReservedBitsAreIllegal : loaded.status.busy = false ∧
    (([(0x00, 0xFF, 0x100), (0x01, 0xFF, 0x101), (0x02, 0xFF, 0x102), (0x03, 0xFF, 0x103), (0x04, 0xFF, 0x104),
      (0x05, 0xFF, 0x105), (0x08, 0x3FF, 0x408), (0x09, 0x3FF, 0x409), (0x10, 0x3FFF, 0x4010), (0x18, 0x0FFF, 0x1018),
      (0x20, 0x7FF, 0x820)] : List (Word × Word × Word)).all fun c =>
        c.2.2 &&& 0xFF == c.1 && c.2.2 &&& ~~~c.2.1 != 0) = true := by decide

/-- The ends of every range of unassigned OPC values. -/
theorem witness_UnassignedOpcodesAreIllegal : loaded.status.busy = false ∧
    ((0x06 : Word).toNat % 256 = 0x06 ∧ (0x07 : Word).toNat % 256 = 0x07) ∧
    (0x0A ≤ (0x0A : Word).toNat % 256 ∧ (0xFFFFFF0F : Word).toNat % 256 ≤ 0x0F) ∧
    (0x11 ≤ (0x11 : Word).toNat % 256 ∧ (0xFFFFFF17 : Word).toNat % 256 ≤ 0x17) ∧
    (0x19 ≤ (0x19 : Word).toNat % 256 ∧ (0xFFFFFF1F : Word).toNat % 256 ≤ 0x1F) ∧
    0x21 ≤ (0x21 : Word).toNat % 256 ∧ 0x21 ≤ (0xFFFFFFFF : Word).toNat % 256 := by decide

theorem witness_StepRunsTheDecodedCommand : waiting.pending = some 0 ∧ decode 0 = .ok .nop ∧ waiting.schedule = [] ∧
    (facing .engine waiting).pending = some 0 ∧ (facing .engine waiting).schedule = [.engine] := by decide

theorem witness_StepTakesTheNextEvent :
    (facing (.host (loaded.accessAt 0x008 .read)) loaded).schedule = [.host (loaded.accessAt 0x008 .read)] ∧
    (facing (.memory 0 1) loaded).schedule = [.memory 0 1] ∧
    ((facing .engine loaded).schedule = [.engine] ∧ (facing .engine loaded).pending = none) ∧
    (loaded.schedule = [] ∧ loaded.pending = none) := by decide

/-- NOP, INIT, VSEED, VZERO and HRED ask only that the duty of R97 is unbroken. -/
theorem witness_NopOnlyCompletes : loaded.breached = false := by decide

theorem witness_InitSeedsEverything : loaded.breached = false := by decide

theorem witness_VseedAndVzeroWriteOneAccumulator : loaded.breached = false ∧ (1 : Fin 4) ≠ (3 : BitVec 2).toFin := by
  decide

theorem witness_SfoldFoldsOneByte :
    loaded.breached = false ∧ loaded.platform.admits (loaded.base + loaded.pos) = true := by decide

theorem witness_SfoldEightIsEightSfolds :
    loaded.breached = false ∧ loaded.admitsBytes loaded.pos.toNat 8 = true := by decide

/-- The state of `loaded` with every byte folded. -/
def atEnd : State := { loaded with pos := 9 }

/-- TAIL with every byte left, and with none. -/
theorem witness_TailFoldsTheRest :
    (loaded.breached = false ∧ loaded.pos.toNat ≤ loaded.len.toNat ∧
      loaded.admitsBytes loaded.pos.toNat (loaded.len.toNat - loaded.pos.toNat) = true ∧ loaded.pos ≠ loaded.len) ∧
    (atEnd.breached = false ∧ atEnd.pos.toNat ≤ atEnd.len.toNat ∧
      atEnd.admitsBytes atEnd.pos.toNat (atEnd.len.toNat - atEnd.pos.toNat) = true) := by decide

theorem witness_VrpiIsWSfolds :
    loaded.breached = false ∧ loaded.admitsBytes loaded.pos.toNat loaded.w = true := by decide

theorem witness_VmacAdvancesOneAccumulator : (2 : BitVec 2) ≠ 3 ∧ loaded.breached = false ∧
    loaded.admitsBytes loaded.pos.toNat loaded.w = true ∧ (0 : Fin 4) ≠ (3 : BitVec 2).toFin := by decide

theorem witness_HorizontalSumIsLinear : stepOfField 2 = some .four ∧ loaded.breached = false ∧
    loaded.admitsBytes loaded.pos.toNat loaded.w = true := by decide

theorem witness_HredSumsTheSelectedAccumulators : hredState.breached = false := by decide

theorem witness_HashIsThePolynomialHash : (5 : BitVec 3).toNat ≤ 5 ∧ loaded.breached = false ∧
    loaded.admitsBytes 0 loaded.len.toNat = true := by decide

theorem witness_HashLeavesTheUnreducedAccumulators : loaded.breached = false ∧
    loaded.admitsBytes 0 loaded.len.toNat = true ∧ (2 : BitVec 3).toNat ≤ 2 ∧
    ∀ v ∈ ([(3, 1), (4, 2), (5, 4)] : List (BitVec 3 × Nat)),
      (v.1.toNat, v.2) ∈ ([(3, 1), (4, 2), (5, 4)] : List (Nat × Nat)) := by decide

/-- Two machines with other lane counts, another BASE and another history over the same nine bytes. -/
theorem witness_HashDependsOnlyOnTheBuffer : ∃ s s' t t' : State, s.breached = false ∧ s'.breached = false ∧
    s.admitsBytes 0 s.len.toNat = true ∧ s'.admitsBytes 0 s'.len.toNat = true ∧ s.len = s'.len ∧
    (∀ i, i < s.len.toNat → s.inputByte i = s'.inputByte i) ∧ s.base ≠ s'.base ∧ s.w ≠ s'.w ∧ s.h ≠ s'.h ∧
    exec (.hash 3) s = .next t ∧ exec (.hash 3) s' = .next t' :=
  ⟨loaded, { withInput State.reset 0x1000 pat9 with h := 7 }, _, _, by decide, by decide, by decide, by decide,
    by decide, by decide, by decide, by decide, by decide, rfl, rfl⟩

theorem witness_HashIsItsScriptOfCommands : loaded.breached = false ∧
    loaded.admitsBytes 0 loaded.len.toNat = true ∧
    variantOfField 0 = some .scalar ∧ variantOfField 1 = some .unrolled ∧ variantOfField 2 = some .rpi ∧
    variantOfField 3 = some .deferred ∧ variantOfField 4 = some .dual ∧ variantOfField 5 = some .quad := by decide

theorem witness_ReservedFieldsStopTheEngine :
    ¬ (Instr.vmac 0 0 3).WellFormed ∧ ¬ (Instr.hash 6).WellFormed ∧ ¬ (Instr.hash 7).WellFormed := by decide

/-- The command completes, and it aborts. -/
theorem witness_CommandsKeepConfigurationAndMemory :
    (∃ t, exec .sfold loaded = .next t) ∧ ∃ t, exec .sfold unanswered = .next t := ⟨⟨_, rfl⟩, ⟨_, rfl⟩⟩

theorem witness_EngineCompletesOrAborts :
    (∃ t, exec .sfold loaded = .next t ∧ t.status.done = true) ∧
    ∃ t, exec .sfold unanswered = .next t ∧ t.status.done = false :=
  ⟨⟨_, rfl, by decide⟩, ⟨_, rfl, by decide⟩⟩

/-- One missing byte for every command that reads input. -/
theorem witness_InadmissibleInputAborts :
    unanswered.platform.admits (unanswered.ea unanswered.pos.toNat) = false ∧
    (7 < 8 ∧ unanswered.platform.admits (unanswered.ea (unanswered.pos.toNat + 7)) = false) ∧
    ((2 : BitVec 2) ≠ 3 ∧ 1 < unanswered.w ∧
      unanswered.platform.admits (unanswered.ea (unanswered.pos.toNat + 1)) = false) ∧
    (unanswered.pos.toNat ≤ 8 ∧ 8 < unanswered.len.toNat ∧ unanswered.platform.admits (unanswered.ea 8) = false) ∧
    ((5 : BitVec 3).toNat ≤ 5 ∧ 8 < unanswered.len.toNat) := by decide

/-- Every clause, with the fewest bytes left that its range check lets through. -/
theorem witness_PosAdvancesWithinLen :
    (∀ c ∈ ([(.sfold, 8), (.sfold8, 1), (.vrpi, 7), (.vmac 3 3 2, 7), (.tail, 9), (.hash 5, 9), (.init, 9), (.nop, 9),
        (.vseed 1, 9), (.vzero 1, 9), (.hred 1, 9)] : List (Instr × Word)),
      rangeOk { loaded with pos := c.2 } c.1 = true ∧ c.1.WellFormed) ∧
    loaded.breached = false ∧ loaded.admitsBytes 0 loaded.len.toNat = true ∧
    ∃ t, exec .sfold { loaded with pos := 8 } = .next t := ⟨by decide, by decide, by decide, ⟨_, rfl⟩⟩

theorem witness_CompletionWithoutErrorEndsWell :
    ∃ t, exec .nop loaded = .next t ∧ loaded.status.err = false := ⟨_, rfl, by decide⟩

/-- The first and the last address of the window; an access of another width; a misaligned one. -/
theorem witness_WindowAnswersAlignedWordsOnly :
    (∀ a ∈ ([loaded.accessAt 0 .read, loaded.accessAt 0xFFC .read] : List HostAccess),
      loaded.platform.phaBase ≤ a.addr ∧ a.addr < loaded.platform.phaBase + 0x1000 ∧ a.size = .word ∧
      (a.addr - loaded.platform.phaBase) % 4 = 0) ∧
    (∀ a ∈ ([⟨.byte, 0, .read⟩, ⟨.halfword, 0xFFE, .read⟩] : List HostAccess),
      loaded.platform.phaBase ≤ a.addr ∧ a.addr < loaded.platform.phaBase + 0x1000 ∧ a.size ≠ .word) ∧
    (loaded.accessAt 0xFFF .read).size = .word ∧
    ((loaded.accessAt 0xFFF .read).addr - loaded.platform.phaBase) % 4 ≠ 0 := by decide

/-- The three checks and acceptance: busy, illegal, one byte too many, and exactly the bytes left. -/
theorem witness_CmdWriteIsAcceptedOrRejected : waiting.status.busy = true ∧
    (loaded.status.busy = false ∧ ∀ i, decode 0xFFFFFFFF ≠ .ok i) ∧
    (decode 3 = .ok .sfold8 ∧ loaded.len.toNat < (2 : Word).toNat + 8) ∧
    (decode 3 = .ok .sfold8 ∧ (1 : Word).toNat + 8 ≤ loaded.len.toNat) :=
  ⟨by decide, ⟨by decide, nofun⟩, by decide, by decide⟩

/-- An idle state, and the last lane, ROM and reserved offsets. -/
theorem witness_IdleWritesTakeEffect : loaded.status.busy = false ∧ 1 < loaded.w ∧ 511 < 512 ∧
    (0x020 ≤ 0x3FC ∧ 0x3FC < 0x400 ∧ 0x3FC % 4 = 0) ∧ (loaded.w ≤ 2 ∧ 2 < 64) ∧ (loaded.w ≤ 63 ∧ 63 < 64) := by decide

theorem witness_BusyWritesAreDropped : waiting.status.busy = true ∧ 1 < waiting.w ∧ 511 < 512 ∧
    (0x020 ≤ 0x3FC ∧ 0x3FC < 0x400 ∧ 0x3FC % 4 = 0) ∧ (waiting.w ≤ 2 ∧ 2 < 64) ∧ (waiting.w ≤ 63 ∧ 63 < 64) := by decide

/-- Offsets on both sides of every border of the map. -/
theorem witness_IdleReadsReturnTheRegisters : loaded.status.busy = false ∧
    ∀ off ∈ [0x000, 0x01C, 0x020, 0x3FC, 0x400, 0x404, 0x408, 0x7FC, 0x800, 0x820, 0x824, 0xFFC],
      off < 0x1000 ∧ off % 4 = 0 := by decide

theorem witness_BusyReadsOfTheDatapathAreUnspecified : waiting.status.busy = true ∧ 1 < waiting.w ∧ 511 < 512 ∧
    (0x020 ≤ 0x3FC ∧ 0x3FC < 0x400 ∧ 0x3FC % 4 = 0) ∧ (waiting.w ≤ 2 ∧ 2 < 64) := by decide

theorem witness_OnlyACmdWriteStartsACommand :
    ∃ t, step (facing (.host (loaded.accessAt 0x00C (.write 2))) loaded) = .next t ∧
      (facing (.host (loaded.accessAt 0x00C (.write 2))) loaded).pending = none ∧ t.pending = some 2 :=
  ⟨_, rfl, by decide, by decide⟩

theorem witness_ParamHoldsTheBuild : State.reset.w = 8 := by decide

theorem witness_RomHoldsThePowersOf31 : 1 ≤ 1 ∧ 32 ≤ 4 * State.reset.w := by decide

theorem witness_OnlyMemoryEventsChangeTheInput :
    (∃ t, step loaded = .next t ∧ ∀ a b rest, loaded.schedule ≠ .memory a b :: rest) ∧
    ∃ t, step (facing (.memory 0xFFFFFFFF 5) loaded) = .next t ∧
      (facing (.memory 0xFFFFFFFF 5) loaded).schedule = [.memory 0xFFFFFFFF 5] ∧ (0 : Word) ≠ 0xFFFFFFFF :=
  ⟨⟨_, rfl, nofun⟩, ⟨_, rfl, rfl, by decide⟩⟩

/-- The first and the last byte of the buffer. -/
theorem witness_InputChangedInUseGivesDraws : loaded.status.busy = false ∧ (5 : BitVec 3).toNat ≤ 5 ∧
    0 < loaded.len.toNat ∧ 8 < loaded.len.toNat ∧ loaded.admitsBytes 0 loaded.len.toNat = true := by decide

theorem witness_BrokenDutyDrawsAtCompletion : (Instr.hash 5).WellFormed ∧ Instr.sfold.WellFormed ∧
    spoiled.breached = true ∧ spoiled.admitsBytes 0 spoiled.len.toNat = true ∧ rangeOk spoiled (.hash 5) = true ∧
    rangeOk spoiled .sfold = true := by decide

theorem witness_ObservingIdleEndsTheDuty : loaded.status.busy = false := by decide

/-- An earlier command that read the byte at 0x100 has been performed, and the host has not observed BUSY = 0 since. -/
def unobserved : State := { loaded with uses := [⟨⟨0x100, 1⟩, .all 2⟩] }

/-- R210 and program P4: the byte at 0x100 changes while HASH is pending, and HASH answers as alone. -/
theorem test_hash_ignores_an_earlier_byte : afterWrite unobserved 0x00C 0x00000520
    (fun t => gives (exec (.hash 5) (storeByte 0x100 0x55 t)) fun u =>
      u.h == 0x28A105BE && u.pos == 9 && u.accOf 3 == [0xFFFFFD37, 0x0000000E] && u.uses.length == 1) = true := by decide

theorem witness_HashIgnoresTheInputOfEarlierCommands : unobserved.status.busy = false ∧ unobserved.breached = false ∧
    (5 : BitVec 3).toNat ≤ 5 ∧ unobserved.admitsBytes 0 unobserved.len.toNat = true ∧
    (∀ k, k < unobserved.len.toNat → unobserved.ea k ≠ 0x100) ∧ unobserved.spoils 0x100 Marks.h = true := by decide

/-- HASH on its last byte, and SFOLD on a byte after POS and on the byte at POS. -/
theorem witness_InputChangedBeforeObservationGivesDraws :
    (loaded.status.busy = false ∧ decode 0x00000520 = .ok (.hash 5) ∧ rangeOk loaded (.hash 5) = true ∧
      8 < loaded.len.toNat) ∧
    (decode 0x00000002 = .ok .sfold ∧ rangeOk { loaded with pos := 8 } .sfold = true ∧ (8 : Word).toNat ≤ 8) ∧
    (∃ s1, hostAccess (loaded.accessAt 0x00C (.write 0x00000002)) loaded = .next s1 ∧
      ∃ t, exec .sfold s1 = .next t) := ⟨by decide, by decide, ⟨_, rfl, _, rfl⟩⟩

theorem witness_WrittenRegistersKeepTheirValue : unobserved.status.busy = false ∧ 1 < unobserved.w ∧
    unobserved.spoils 0x100 Marks.pos = true ∧ unobserved.spoils 0x100 (fun m => m.lane 3 1) = true := by decide

theorem witness_FirstErrorCodeStays : ∃ t, step failed = .next t ∧ failed.status.err = true ∧
    (∀ rest, failed.schedule ≠ .reset :: rest) ∧
    ∀ (v : Word) rest, v.getLsbD 2 = true → failed.schedule ≠ .host (failed.accessAt 0x008 (.write v)) :: rest :=
  ⟨_, rfl, by decide, nofun, nofun⟩

theorem witness_InterruptFollowsStatus : (∃ t, exec .nop loaded = .next t) ∧ loaded.ie = false ∧
    (6 : Word).getLsbD 1 = true ∧ (6 : Word).getLsbD 2 = true := ⟨⟨_, rfl⟩, by decide, by decide, by decide⟩

theorem witness_ResetSignalRestoresEveryRegister : (facing .reset waiting).schedule = [.reset] ∧ 1 < waiting.w := by
  decide

theorem witness_HashAfterResetIsOne : (0 : BitVec 3).toNat ≤ 5 ∧ (5 : BitVec 3).toNat ≤ 5 := by decide

/-- The waiting state meets the invariant, and the engine's turn is next. -/
theorem waiting_inv : waiting.Inv where
  status := ⟨by decide, by decide, by decide⟩
  accepted := fun w h => ⟨.nop, by cases h; decide, by decide⟩
  lanes := by decide
  memory := by decide
  breach := by decide
  idle := nofun

theorem witness_StepKeepsTheInvariant : ∃ s t : State, s.Inv ∧ step s = .next t ∧ t ≠ s :=
  ⟨waiting, _, waiting_inv, rfl, by decide⟩

theorem witness_StepKeepsTheBuild : ∃ t, step waiting = .next t := ⟨_, rfl⟩

/-- A state under the invariant, and one whose next event is refused. -/
theorem witness_NoStepFaultsUnderTheInvariant : waiting.Inv ∧
    (facing (.host ⟨.word, 0x1000, .read⟩) waiting).Inv ∧
    step (facing (.host ⟨.word, 0x1000, .read⟩) waiting) = .refused .outsideWindow :=
  ⟨waiting_inv, ⟨waiting_inv.status, waiting_inv.accepted, waiting_inv.lanes, waiting_inv.memory, waiting_inv.breach,
    waiting_inv.idle⟩, rfl⟩

theorem witness_EngineTurnEndsThePendingCommand : waiting.Inv ∧ waiting.pending = some 0 ∧ waiting.schedule = [] ∧
    (facing .engine waiting).schedule = [.engine] := ⟨waiting_inv, by decide, by decide, by decide⟩

end Sys2Proof.Tests
end

section
/-! PolyHash over the integers (spec/00_scope.md R18): the fold modulo 2^32 computes the integer polynomial in 31 whose
coefficients are the signed bytes. -/

namespace Sys2Proof.Machine

theorem sext32_eq_ofInt (b : Byte) : sext32 b = BitVec.ofInt 32 b.toInt := rfl

/-- One fold step is the same step over the integers, with the byte read as signed. -/
theorem foldStep_ofInt (z : ℤ) (b : Byte) :
    31 * BitVec.ofInt 32 z + sext32 b = BitVec.ofInt 32 (31 * z + b.toInt) := by
  rw [BitVec.ofInt_add, BitVec.ofInt_mul, sext32_eq_ofInt]
  rfl

/-- Horner's rule from any integer start; the start is general so that the induction can move one byte into it. -/
theorem foldFrom_map_sext32 (z : ℤ) (b : List Byte) :
    foldFrom (BitVec.ofInt 32 z) (b.map sext32) =
      BitVec.ofInt 32 (z * 31 ^ b.length + ∑ i : Fin b.length, b[i].toInt * 31 ^ (b.length - 1 - i.val)) := by
  induction b generalizing z with
  | nil => simp
  | cons x xs ih =>
    have splitHead : ∑ i : Fin (x :: xs).length, (x :: xs)[i].toInt * 31 ^ ((x :: xs).length - 1 - i.val) =
        x.toInt * 31 ^ xs.length + ∑ i : Fin xs.length, xs[i].toInt * 31 ^ (xs.length - 1 - i.val) := by
      simp [Fin.sum_univ_succ, Nat.sub_sub, Nat.add_comm]
    rw [List.map_cons, foldFrom_cons, foldStep_ofInt, ih, splitHead, List.length_cons]
    congr 1
    ring

/-- Settles O23: Horner's rule started at 1. -/
theorem polyHashIsTheClosedForm : Obligations.PolyHashIsTheClosedForm := by
  intro b
  simpa [polyHash] using foldFrom_map_sext32 1 b

end Sys2Proof.Machine
end

section
/-! The configuration registers and the ROM as the host finds them, and what a command leaves alone (spec/10_state.md R31,
R36-R38, R40, R44). -/

namespace Sys2Proof.Machine

/-! ### Reading outside the datapath -/

/-- Outside the datapath and STATUS, RegRead answers in every state and touches the read data alone (R89, R93). -/
theorem busRead_of_not_datapath {r : Reg} (hdata : r.isDatapath = false) (hstatus : r ≠ .status) (s : State) :
    busRead r s = { s with readData := some (regRead r s) } := by
  simp [busRead, hdata, hstatus]

/-- The host's read of such a register, given the offset it sits at. -/
theorem hostAccess_read_of_not_datapath {s : State} {off : Nat} {r : Reg} (hoff : off < 0x1000) (aligned : off % 4 = 0)
    (hr : Reg.ofOffset s.w off = r) (hdata : r.isDatapath = false) (hstatus : r ≠ .status) :
    hostAccess (s.accessAt off .read) s = .next { s with readData := some (regRead r s) } := by
  rw [hostAccess_read hoff aligned, hr, busRead_of_not_datapath hdata hstatus]

/-! ### The coefficient ROM -/

/-- The `4 * W + 1` entries of the ROM lie inside the window for every legal W (R6, R49). -/
theorem pow_offset_lt {s : State} {k : Nat} (hk : k ≤ 4 * s.w) : 0x800 + 4 * k < 0x1000 := by
  have := s.w_le
  omega

theorem ofOffset_pow_of_le {w k : Nat} (hk : k ≤ 4 * w) : Reg.ofOffset w (0x800 + 4 * k) = .pow k := by
  rw [ofOffset_pow, if_pos hk]

theorem hostAccess_read_pow {s : State} {k : Nat} (hk : k ≤ 4 * s.w) :
    hostAccess (s.accessAt (0x800 + 4 * k) .read) s = .next { s with readData := some (pow31 k) } :=
  hostAccess_read_of_not_datapath (pow_offset_lt hk) (by omega) (ofOffset_pow_of_le hk) rfl nofun

theorem hostAccess_write_pow {s : State} {k : Nat} (hk : k ≤ 4 * s.w) (v : Word) :
    hostAccess (s.accessAt (0x800 + 4 * k) (.write v)) s = .next s := by
  rw [hostAccess_write v (pow_offset_lt hk) (by omega), ofOffset_pow_of_le hk, regWrite]

/-- Settles O40: the ROM's recursion, its closed form, and the host's two accesses to an entry. -/
theorem romHoldsThePowersOf31 : Obligations.RomHoldsThePowersOf31 := by
  refine ⟨pow31_zero, fun k hk => ?_, pow31_eq, fun s k hk => ⟨?_, hostAccess_write_pow hk⟩⟩
  · obtain ⟨m, rfl⟩ := Nat.exists_eq_add_of_le' hk
    rfl
  · rw [hostAccess_read_pow hk, pow31_eq]

/-! ### PARAM -/

theorem ofOffset_param {w : Nat} : Reg.ofOffset w 0x000 = .param := ofOffset_first (by decide)

/-- A field of PARAM is a quotient of its value, which fits in 32 bits for every legal W. -/
theorem paramWord_extractLsb' {w : Nat} (hw : w ≤ 64) (lo n : Nat) :
    (paramWord w).extractLsb' lo n = BitVec.ofNat n ((w + 256 * 4 + 65536 * 31) / 2 ^ lo) := by
  apply BitVec.eq_of_toNat_eq
  rw [BitVec.extractLsb'_toNat, paramWord, BitVec.toNat_ofNat, BitVec.toNat_ofNat, Nat.shiftRight_eq_div_pow,
    Nat.mod_eq_of_lt (a := w + _ + _) (by omega)]

theorem paramWord_lanes {w : Nat} (hw : w ≤ 64) : (paramWord w).extractLsb' 0 8 = BitVec.ofNat 8 w := by
  rw [paramWord_extractLsb' hw]
  apply BitVec.eq_of_toNat_eq
  simp only [BitVec.toNat_ofNat]
  omega

theorem paramWord_accumulators {w : Nat} (hw : w ≤ 64) : (paramWord w).extractLsb' 8 8 = 4 := by
  rw [paramWord_extractLsb' hw, show (w + 256 * 4 + 65536 * 31) / 2 ^ 8 = 4 + 256 * 31 by omega]
  rfl

theorem paramWord_base31 {w : Nat} (hw : w ≤ 64) : (paramWord w).extractLsb' 16 8 = 31 := by
  rw [paramWord_extractLsb' hw, show (w + 256 * 4 + 65536 * 31) / 2 ^ 16 = 31 by omega]
  rfl

theorem paramWord_reserved {w : Nat} (hw : w ≤ 64) : (paramWord w).extractLsb' 24 8 = 0 := by
  rw [paramWord_extractLsb' hw, show (w + 256 * 4 + 65536 * 31) / 2 ^ 24 = 0 by omega]
  rfl

/-- Settles O37: PARAM field by field, its value for W = 8, the reset signal, and the host's two accesses. -/
theorem paramHoldsTheBuild : Obligations.ParamHoldsTheBuild := by
  refine ⟨fun s => ⟨paramWord_lanes s.w_le, paramWord_accumulators s.w_le, paramWord_base31 s.w_le,
    paramWord_reserved s.w_le, fun h => ?_, ?_⟩, fun s => ?_, fun s v => ?_⟩
  · rw [h]
    decide
  · rw [resetSignal_w]
  · rw [hostAccess_read_of_not_datapath (by decide) (by decide) ofOffset_param rfl nofun, regRead]
  · rw [hostAccess_write v (by decide) (by decide), ofOffset_param, regWrite]

/-! ### CTRL -/

theorem ofOffset_ctrl {w : Nat} : Reg.ofOffset w 0x004 = .ctrl := ofOffset_first (by decide)

theorem ctrlWord_getLsbD (ie : Bool) (k : Nat) : (ctrlWord ie).getLsbD k = (decide (k = 0) && ie) := by
  cases ie with
  | false => simp [ctrlWord]
  | true => simp [ctrlWord]

/-- Settles O38: CTRL bit by bit, and the host's two accesses, which do not look at BUSY. -/
theorem ctrlIsTheInterruptEnable : Obligations.CtrlIsTheInterruptEnable := by
  refine ⟨fun s => ctrlWord_getLsbD s.ie, fun s => ?_, fun s v => ?_, resetSignal_ie⟩
  · rw [hostAccess_read_of_not_datapath (by decide) (by decide) ofOffset_ctrl rfl nofun, regRead]
  · rw [hostAccess_write v (by decide) (by decide), ofOffset_ctrl, regWrite]

/-! ### What a command leaves alone -/

/-- A byte of the input memory depends on the placed bytes alone (R31, R81). -/
theorem byteAt_congr {s t : State} (h : t.input = s.input) (a : Word) : t.byteAt a = s.byteAt a := by
  simp only [State.byteAt, h]

/-- Settles O25: a command's body writes the datapath alone, and neither completion nor the abort writes what is listed. -/
theorem commandsKeepConfigurationAndMemory : Obligations.CommandsKeepConfigurationAndMemory := by
  intro i s t h
  obtain ⟨f, hf, ⟨-, rfl⟩ | ⟨-, rfl⟩⟩ := exec_next h
  · have body := body_only hf s
    refine ⟨?_, ?_, ?_, ?_, ?_, ?_, byteAt_congr ?_⟩
    · rw [complete_len, body.len]
    · rw [complete_base, body.base]
    · rw [complete_ie, body.ie]
    · rw [complete_platform, body.platform]
    · rw [complete_schedule, body.schedule]
    · rw [complete_readData, body.readData]
    · rw [complete_input, body.input]
  · exact ⟨busAbort_len s i, busAbort_base s i, busAbort_ie s i, busAbort_platform s i, busAbort_schedule s i,
      busAbort_readData s i, byteAt_congr (busAbort_input s i)⟩

end Sys2Proof.Machine
end

section
/-! Writes to the register window, and what they start (spec/20_memory.md R82, R87, R90-R94; spec/60_exceptions.md R234,
R237, R238). -/

namespace Sys2Proof.Machine

/-! ### Effective addresses -/

/-- Settles O41: a sum of 32-bit words is the sum modulo 2^32. -/
theorem effectiveAddressWraps : Obligations.EffectiveAddressWraps := by
  intro s i
  rw [State.ea, BitVec.toNat_add, BitVec.toNat_ofNat, Nat.add_mod_mod]

/-! ### Which accesses the window answers (R87) -/

/-- A 32-bit access is the access at its offset. -/
theorem eq_accessAt {s : State} {a : HostAccess} (hword : a.size = .word) (hbase : s.platform.phaBase ≤ a.addr) :
    a = s.accessAt (a.addr - s.platform.phaBase) a.kind := by
  obtain ⟨size, addr, kind⟩ := a
  subst hword
  simp only [State.accessAt, HostAccess.mk.injEq, true_and, and_true]
  exact (Nat.add_sub_of_le hbase).symm

/-- An aligned 32-bit access inside the window is answered, whichever kind it is. -/
theorem hostAccess_answers {s : State} {off : Nat} (hoff : off < 0x1000) (aligned : off % 4 = 0) (k : AccessKind) :
    ∃ t, hostAccess (s.accessAt off k) s = .next t := by
  cases k with
  | read => exact ⟨_, hostAccess_read hoff aligned⟩
  | write v => exact ⟨_, hostAccess_write v hoff aligned⟩

section
variable {s : State} {a : HostAccess} (hlo : s.platform.phaBase ≤ a.addr) (hhi : a.addr < s.platform.phaBase + 0x1000)
include hlo hhi

theorem hostAccess_of_subWord (hsize : a.size ≠ .word) : hostAccess a s = .refused .subWordAccess := by
  rw [hostAccess, if_neg (by omega), if_pos hsize]

theorem hostAccess_of_misaligned (hword : a.size = .word) (mis : (a.addr - s.platform.phaBase) % 4 ≠ 0) :
    hostAccess a s = .refused .misalignedAccess := by
  rw [hostAccess, if_neg (by omega), if_neg (not_not.2 hword), if_pos mis]

end

/-- Settles O30: an aligned word access by what RegRead and RegWrite answer, the others by the checks before them. -/
theorem windowAnswersAlignedWordsOnly : Obligations.WindowAnswersAlignedWordsOnly := by
  intro s a hlo hhi
  refine ⟨fun hword aligned => ?_, hostAccess_of_subWord hlo hhi, hostAccess_of_misaligned hlo hhi⟩
  rw [eq_accessAt hword hlo]
  exact hostAccess_answers (by omega) aligned a.kind

/-! ### A CMD write (R94, R234, R237) -/

theorem submit_of_busy {s : State} (w : Word) (hb : s.status.busy = true) : submit w s = raise .busy s := by
  rw [submit, if_pos hb]

theorem submit_of_illegal {s : State} {w : Word} (hb : s.status.busy = false) (hd : ∀ i, decode w ≠ .ok i) :
    submit w s = raise .illegal s := by
  unfold submit
  rw [hb, if_neg (by decide)]
  cases h : decode w with
  | error e => rfl
  | ok i => exact absurd h (hd i)

theorem submit_of_decodes {s : State} {w : Word} {i : Instr} (hb : s.status.busy = false) (hd : decode w = .ok i) :
    submit w s = if rangeOk s i then accept w i s else raise .range s := by
  unfold submit
  rw [hb, hd, if_neg (by decide)]

/-- The RANGE check passes exactly when the byte count, where there is one, fits (R237). -/
theorem rangeOk_iff {s : State} {i : Instr} :
    rangeOk s i = true ↔ ∀ n, byteCount s.w i = some n → s.pos.toNat + n ≤ s.len.toNat := by
  unfold rangeOk
  cases byteCount s.w i with
  | none => simp
  | some n => simp

/-- The RANGE check fails exactly when there is a byte count that does not fit (R237). -/
theorem not_rangeOk_iff {s : State} {i : Instr} :
    ¬ rangeOk s i = true ↔ ∃ n, byteCount s.w i = some n ∧ s.len.toNat < s.pos.toNat + n := by
  simp only [rangeOk_iff, not_forall, not_le, exists_prop]

/-! ### RegWrite by the register at the offset (R90, R92) -/

/-- A host write, given the register that sits at the offset. -/
theorem hostAccess_write_of_ofOffset {s : State} {off : Nat} {r : Reg} (v : Word) (hoff : off < 0x1000)
    (aligned : off % 4 = 0) (hr : Reg.ofOffset s.w off = r) :
    hostAccess (s.accessAt off (.write v)) s = .next (regWrite r v s) := by
  rw [hostAccess_write v hoff aligned, hr]

theorem hostAccess_write_cmd (s : State) (w : Word) :
    hostAccess (s.accessAt 0x00C (.write w)) s = .next (submit w s) :=
  hostAccess_write_of_ofOffset w (by decide) (by decide) (ofOffset_cmd.2 rfl)

section
variable {s : State} {w : Word} {i : Instr} {n : Option Nat} (hb : s.status.busy = false) (hd : decode w = .ok i)
  (hn : byteCount s.w i = n)
include hb hd hn

theorem hostAccess_write_cmd_of_tooLong (tooLong : ∃ k, n = some k ∧ s.len.toNat < s.pos.toNat + k) :
    hostAccess (s.accessAt 0x00C (.write w)) s = .next { s with status := s.status.withError .range } := by
  rw [← hn] at tooLong
  rw [hostAccess_write_cmd, submit_of_decodes hb hd, if_neg (not_rangeOk_iff.2 tooLong), raise_eq]

theorem hostAccess_write_cmd_of_fits (fits : ∀ k, n = some k → s.pos.toNat + k ≤ s.len.toNat) :
    hostAccess (s.accessAt 0x00C (.write w)) s = .next (accept w i s) := by
  rw [← hn] at fits
  rw [hostAccess_write_cmd, submit_of_decodes hb hd, if_pos (rangeOk_iff.2 fits)]

end

/-- Settles O31: the checks in their order; the byte counts the statement lists are the model's. -/
theorem cmdWriteIsAcceptedOrRejected : Obligations.CmdWriteIsAcceptedOrRejected := by
  intro s w
  refine ⟨fun hb => ?_, fun hb hd => ?_, fun i hb hd => ⟨?_, fun fits => ⟨accept w i s, ?_, rfl⟩⟩⟩
  · rw [hostAccess_write_cmd, submit_of_busy w hb, raise_eq]
  · rw [hostAccess_write_cmd, submit_of_illegal hb hd, raise_eq]
  · exact hostAccess_write_cmd_of_tooLong hb hd (by cases i <;> rfl)
  · exact hostAccess_write_cmd_of_fits hb hd (by cases i <;> rfl) fits

/-! ### Writes that do not look at BUSY -/

theorem hostAccess_write_ctrl (s : State) (v : Word) :
    hostAccess (s.accessAt 0x004 (.write v)) s = .next { s with ie := v.getLsbD 0 } :=
  hostAccess_write_of_ofOffset v (by decide) (by decide) ofOffset_ctrl

/-- The write-1-to-clear rule field by field (R39). -/
theorem clearStatus_eq (v : Word) (t : Status) :
    clearStatus v t =
      { busy := t.busy
        done := if v.getLsbD 1 then false else t.done
        err := if v.getLsbD 2 then false else t.err
        code := if v.getLsbD 2 then .none else t.code } := by
  have clear (b x : Bool) : (x && !b) = if b then false else x := by cases b <;> simp
  rw [clearStatus, clear, clear]

theorem hostAccess_write_status (s : State) (v : Word) :
    hostAccess (s.accessAt 0x008 (.write v)) s = .next { s with status :=
      { busy := s.status.busy
        done := if v.getLsbD 1 then false else s.status.done
        err := if v.getLsbD 2 then false else s.status.err
        code := if v.getLsbD 2 then .none else s.status.code } } := by
  rw [hostAccess_write_of_ofOffset v (by decide) (by decide) (ofOffset_status.2 rfl), regWrite, clearStatus_eq]

theorem hostAccess_write_param (s : State) (v : Word) : hostAccess (s.accessAt 0x000 (.write v)) s = .next s :=
  hostAccess_write_of_ofOffset v (by decide) (by decide) ofOffset_param

theorem hostAccess_write_reserved {s : State} {off : Nat} (v : Word) (hoff : off < 0x1000) (aligned : off % 4 = 0)
    (hr : Reg.ofOffset s.w off = .reserved) : hostAccess (s.accessAt off (.write v)) s = .next s :=
  hostAccess_write_of_ofOffset v hoff aligned hr

/-- The whole ROM area ignores writes: its entries, and the reserved offsets above them. -/
theorem hostAccess_write_romArea {s : State} (v : Word) {k : Nat} (hk : k < 512) :
    hostAccess (s.accessAt (0x800 + 4 * k) (.write v)) s = .next s := by
  by_cases entry : k ≤ 4 * s.w
  · exact hostAccess_write_pow entry v
  · exact hostAccess_write_reserved v (by omega) (by omega) (ofOffset_pow.trans (if_neg entry))

theorem hostAccess_write_low {s : State} (v : Word) {off : Nat} (hlo : 0x020 ≤ off) (hhi : off < 0x400)
    (aligned : off % 4 = 0) : hostAccess (s.accessAt off (.write v)) s = .next s :=
  hostAccess_write_reserved v (by omega) aligned (ofOffset_low hlo hhi)

/-- The slots of the accumulators above their `W` lanes ignore writes. -/
theorem hostAccess_write_aboveLanes {s : State} (v : Word) (a : Fin 4) {j : Nat} (hw : s.w ≤ j) (hj : j < 64) :
    hostAccess (s.accessAt (0x400 + 0x100 * a.val + 4 * j) (.write v)) s = .next s :=
  hostAccess_write_reserved v (by omega) (by omega) ((ofOffset_acc a hj).trans (if_neg (Nat.not_lt.2 hw)))

/-! ### Writes to the registers that commands use -/

theorem ofOffset_lane {s : State} (a : Fin 4) {j : Nat} (hj : j < s.w) :
    Reg.ofOffset s.w (0x400 + 0x100 * a.val + 4 * j) = .acc a j := by
  rw [ofOffset_acc a (hj.trans_le s.w_le), if_pos hj]

theorem hostAccess_write_lane {s : State} (v : Word) (a : Fin 4) {j : Nat} (hj : j < s.w) :
    hostAccess (s.accessAt (0x400 + 0x100 * a.val + 4 * j) (.write v)) s = .next (regWrite (.acc a j) v s) :=
  hostAccess_write_of_ofOffset v (by have := s.w_le; omega) (by omega) (ofOffset_lane a hj)

theorem writeIdle_of_idle (set : State → State) {s : State} (hb : s.status.busy = false) : writeIdle set s = set s := by
  rw [writeIdle, hb, if_neg (by decide)]

theorem writeIdle_of_busy (set : State → State) {s : State} (hb : s.status.busy = true) :
    writeIdle set s = raise .busy s := by
  rw [writeIdle, if_pos hb]

/-! An idle write sets its register (R90); for POS, H and a lane the record of what comes from earlier commands follows it. -/

section
variable {s : State} (hb : s.status.busy = false) (v : Word)
include hb

theorem regWrite_base_of_idle : regWrite .base v s = { s with base := v } := by
  rw [regWrite, writeIdle_of_idle _ hb]

theorem regWrite_len_of_idle : regWrite .len v s = { s with len := v } := by
  rw [regWrite, writeIdle_of_idle _ hb]

theorem regWrite_pos_of_idle : regWrite .pos v s = { s.remark Marks.dropPos with pos := v } := by
  rw [regWrite, writeIdle_of_idle _ hb]

theorem regWrite_h_of_idle : regWrite .h v s = { s.remark Marks.dropH with h := v } := by
  rw [regWrite, writeIdle_of_idle _ hb]

theorem regWrite_lane_of_idle (a : Fin 4) (j : Nat) :
    regWrite (.acc a j) v s = (s.remark fun m => m.dropLane a j).setAcc a (setLane s.w (s.accOf a) j v) := by
  rw [regWrite, writeIdle_of_idle _ hb]

end

/-- Settles O32: RegWrite of the register at each offset, with the guard of `writeIdle` open. -/
theorem idleWritesTakeEffect : Obligations.IdleWritesTakeEffect := by
  intro s v hb
  refine ⟨?base, ?len, ⟨{ s.remark Marks.dropPos with pos := v }, ?pos, rfl⟩,
    ⟨{ s.remark Marks.dropH with h := v }, ?h, rfl⟩, fun a j hj => ?lane, hostAccess_write_ctrl s v,
    hb ▸ hostAccess_write_status s v, hostAccess_write_cmd s v, hostAccess_write_param s v,
    fun k => hostAccess_write_romArea v, fun off => hostAccess_write_low v, fun a j => hostAccess_write_aboveLanes v a⟩
  case base => rw [hostAccess_write_of_ofOffset (r := .base) v (by decide) (by decide) rfl, regWrite_base_of_idle hb]
  case len => rw [hostAccess_write_of_ofOffset (r := .len) v (by decide) (by decide) rfl, regWrite_len_of_idle hb]
  case pos => rw [hostAccess_write_of_ofOffset (r := .pos) v (by decide) (by decide) rfl, regWrite_pos_of_idle hb]
  case h => rw [hostAccess_write_of_ofOffset (r := .h) v (by decide) (by decide) rfl, regWrite_h_of_idle hb]
  case lane =>
    refine ⟨_, hostAccess_write_lane v a hj, ?_⟩
    rw [regWrite_lane_of_idle hb]
    refine ⟨rfl, ?_, fun k hk hne => ?_, fun b hne => ?_⟩
    · rw [State.accOf_setAcc, if_pos rfl, lane_setLane _ _ hj, if_pos rfl]
    · rw [State.accOf_setAcc, if_pos rfl, lane_setLane _ _ hk, if_neg hne]
    · rw [State.accOf_setAcc, if_neg hne.symm, accOf_congr (State.remark_acc s _)]

/-- CMD, BASE, LEN, POS, H and the ACC lanes: what the host writes only while BUSY = 0 (R92, R234). -/
def Reg.needsIdle : Reg → Bool
  | .cmd | .base | .len | .pos | .h | .acc _ _ => true
  | .param | .ctrl | .status | .pow _ | .reserved => false

/-- A busy write to such a register is dropped with error BUSY (R92, R94, R238). -/
theorem regWrite_of_busy {r : Reg} {s : State} (hr : r.needsIdle = true) (hb : s.status.busy = true) (v : Word) :
    regWrite r v s = { s with status := s.status.withError .busy } := by
  rw [← raise_eq]
  cases r with
  | cmd => exact submit_of_busy v hb
  | base | len | pos | h | acc => rw [regWrite, writeIdle_of_busy _ hb]
  | param | ctrl | status | pow | reserved => cases hr

/-- Settles O33: each listed offset holds a register of `needsIdle`, and the other writes do not look at BUSY. -/
theorem busyWritesAreDropped : Obligations.BusyWritesAreDropped := by
  intro s v hb
  refine ⟨fun off hoff => ?dropped, hostAccess_write_ctrl s v, hb ▸ hostAccess_write_status s v,
    hostAccess_write_param s v, fun k => hostAccess_write_romArea v, fun off => hostAccess_write_low v,
    fun a j => hostAccess_write_aboveLanes v a⟩
  case dropped =>
    obtain named | ⟨a, j, hj, rfl⟩ := hoff
    · have place : ∀ off ∈ [0x00C, 0x010, 0x014, 0x018, 0x01C],
          off < 0x400 ∧ off % 4 = 0 ∧ (Reg.named off).needsIdle = true := by decide
      obtain ⟨hfirst, aligned, hr⟩ := place off named
      rw [hostAccess_write_of_ofOffset v (by omega) aligned (ofOffset_first hfirst), regWrite_of_busy hr hb]
    · rw [hostAccess_write_lane v a hj, regWrite_of_busy rfl hb]

/-! ### What starts a command (R91) -/

theorem writeIdle_pending {set : State → State} {s : State} (h : (set s).pending = s.pending) :
    (writeIdle set s).pending = s.pending := by
  obtain ⟨-, hw⟩ | ⟨-, hw⟩ := writeIdle_cases set s
  · rw [hw, raise_pending]
  · rw [hw, h]

/-- No write but one to CMD touches PENDING (R91). -/
theorem regWrite_pending_of_ne_cmd {r : Reg} (hr : r ≠ .cmd) (v : Word) (s : State) :
    (regWrite r v s).pending = s.pending := by
  cases r with
  | cmd => exact absurd rfl hr
  | base | len | pos | h | acc => exact writeIdle_pending rfl
  | param | ctrl | status | pow | reserved => rfl

/-- A CMD write leaves PENDING as it is or puts its own word there (R42, R234). -/
theorem submit_pending (w : Word) (s : State) :
    (submit w s).pending = s.pending ∨ (submit w s).pending = some w := by
  obtain ⟨c, -, h⟩ | ⟨-, i, -, -, h⟩ := submit_cases w s
  · exact .inl (by rw [h, raise_pending])
  · exact .inr (by rw [h, accept_pending])

theorem busRead_pending (r : Reg) (s : State) : (busRead r s).pending = s.pending := by
  rw [busRead_only]

/-- With nothing pending, an access after which `w` is pending is the CMD write of `w` (R91). -/
theorem hostAccess_starts {a : HostAccess} {s t : State} {w : Word} (h : hostAccess a s = .next t)
    (hs : s.pending = none) (ht : t.pending = some w) : a = s.accessAt 0x00C (.write w) := by
  obtain ⟨hword, hbase, -, -, ⟨-, rfl⟩ | ⟨v, hv, rfl⟩⟩ := hostAccess_next h
  · rw [busRead_pending, hs] at ht
    cases ht
  · by_cases hr : Reg.ofOffset s.w (a.addr - s.platform.phaBase) = .cmd
    · rw [hr, regWrite] at ht
      have hvw : v = w := by
        obtain kept | own := submit_pending v s
        · rw [kept, hs] at ht
          cases ht
        · exact Option.some.inj (own.symm.trans ht)
      rw [eq_accessAt hword hbase, ofOffset_cmd.1 hr, hv, hvw]
    · rw [regWrite_pending_of_ne_cmd hr, hs] at ht
      cases ht

/-- Settles O36: of what a step can be with nothing pending, only a host access can leave a word in PENDING. -/
theorem onlyACmdWriteStartsACommand : Obligations.OnlyACmdWriteStartsACommand := by
  intro s t w h hs ht
  obtain ⟨v, -, hv, -, -⟩ | ⟨a, rest, hsched, ha⟩ | ⟨a, b, rest, -, rfl⟩ | ⟨rest, -, rfl⟩ | ⟨-, rfl⟩ := step_next h
  · rw [hs] at hv
    cases hv
  · obtain rfl := hostAccess_starts ha hs ht
    exact ⟨rest, hsched⟩
  · rw [storeByte_pending, hs] at ht
    cases ht
  · rw [resetSignal_pending] at ht
    cases ht
  · rw [hs] at ht
    cases ht

end Sys2Proof.Machine
end

section
/-! The command encoding (spec/30_encoding.md): a word is one of the opcode map's eleven commands, or it is ILLEGAL. -/

namespace Sys2Proof

/-! ### A field in its place (R111) -/

theorem getElem_fieldAt {n : Nat} (lo : Nat) (v : BitVec n) {k : Nat} (hk : k < 32) :
    (fieldAt lo v)[k] = (decide (lo ≤ k) && v.getLsbD (k - lo)) := by
  simp [fieldAt, ← decide_not]

theorem getLsbD_fieldAt {n : Nat} (lo : Nat) (v : BitVec n) {k : Nat} (hk : k < 32) :
    (fieldAt lo v).getLsbD k = (decide (lo ≤ k) && v.getLsbD (k - lo)) := by
  rw [BitVec.getLsbD_eq_getElem hk, getElem_fieldAt]

/-- Taking a field out of its own place gives it back. -/
theorem extractLsb'_fieldAt {n lo : Nat} (v : BitVec n) (inWord : lo + n ≤ 32) :
    (fieldAt lo v).extractLsb' lo n = v := by
  apply BitVec.eq_of_getElem_eq
  intro k hk
  rw [BitVec.getElem_extractLsb', getLsbD_fieldAt lo v (by omega)]
  simp [hk]

/-- Nothing of a field stands in another place. -/
theorem extractLsb'_fieldAt_of_disjoint {n lo lo' n' : Nat} (v : BitVec n) (inWord : lo' + n' ≤ 32)
    (apart : lo' + n' ≤ lo ∨ lo + n ≤ lo') : (fieldAt lo v).extractLsb' lo' n' = 0 := by
  apply BitVec.eq_of_getElem_eq
  intro k hk
  rw [BitVec.getElem_extractLsb', getLsbD_fieldAt lo v (by omega)]
  obtain below | above := apart
  · simp [show ¬ lo ≤ lo' + k by omega]
  · simp [BitVec.getLsbD_of_ge v (lo' + k - lo) (by omega)]

/-- A word's field, put back, is the word's own bits in that place. -/
theorem fieldAt_extractLsb' (w : Word) (lo n : Nat) :
    fieldAt lo (w.extractLsb' lo n) = w &&& fieldAt lo (BitVec.allOnes n) := by
  apply BitVec.eq_of_getElem_eq
  intro k hk
  rw [BitVec.getElem_and, getElem_fieldAt lo _ hk, getElem_fieldAt lo _ hk]
  by_cases above : lo ≤ k
  · simp [above, hk, Bool.and_comm]
  · simp [above]

/-! ### The rows of the opcode map (R117) -/

/-- The mnemonic says which row the operands were read as. -/
theorem mnemonic_operands (k : Mnemonic) (w : Word) : (operands k w).mnemonic = k := by
  cases k <;> rfl

/-- Every row's mask keeps the whole of OPC. -/
theorem maskWord_opc (k : Mnemonic) : (maskWord k).extractLsb' 0 8 = BitVec.allOnes 8 := by
  cases k <;> decide

theorem matchWord_and_maskWord (k : Mnemonic) : matchWord k &&& maskWord k = matchWord k := by
  cases k <;> rfl

theorem mnemonicOf_matchWord (k : Mnemonic) : mnemonicOf ((matchWord k).extractLsb' 0 8) = some k := by
  cases k <;> rfl

/-- A mask that keeps OPC does not change it. -/
theorem opc_and {w m : Word} (keeps : m.extractLsb' 0 8 = BitVec.allOnes 8) :
    (w &&& m).extractLsb' 0 8 = w.extractLsb' 0 8 := by
  rw [BitVec.extractLsb'_and, keeps, BitVec.and_allOnes]

/-- A word that fits a row has the row's OPC. -/
theorem opc_of_matches {w : Word} {k : Mnemonic} (fits : w &&& maskWord k = matchWord k) :
    w.extractLsb' 0 8 = (matchWord k).extractLsb' 0 8 := by
  rw [← fits, opc_and (maskWord_opc k)]

theorem mnemonicOf_of_matches {w : Word} {k : Mnemonic} (fits : w &&& maskWord k = matchWord k) :
    mnemonicOf (w.extractLsb' 0 8) = some k := by
  rw [opc_of_matches fits, mnemonicOf_matchWord]

/-! ### The decoder as R122 states it -/

/-- A word decodes to a command exactly when it fits the command's row, carries the command's operands, and the row's extra
condition holds. -/
theorem decode_eq_ok_iff {w : Word} {i : Instr} :
    decode w = .ok i ↔
      w &&& maskWord i.mnemonic = matchWord i.mnemonic ∧ operands i.mnemonic w = i ∧ i.WellFormed := by
  constructor
  · intro h
    unfold decode at h
    split at h
    · cases h
    next k hk =>
      split at h
      · next fits =>
        split at h
        · next wf =>
          cases h
          rw [mnemonic_operands]
          exact ⟨fits, rfl, wf⟩
        · cases h
      · cases h
  · rintro ⟨fits, ops, wf⟩
    rw [decode, mnemonicOf_of_matches fits]
    simp only [fits, ops, if_true, wf]

/-- If a word decodes, it is as the one row its OPC selects. -/
theorem mnemonic_of_decode {w : Word} {i : Instr} {k : Mnemonic} (hd : decode w = .ok i)
    (hk : mnemonicOf (w.extractLsb' 0 8) = some k) : i.mnemonic = k :=
  Option.some.inj ((mnemonicOf_of_matches (decode_eq_ok_iff.1 hd).1).symm.trans hk)

/-! ### The encoder (R112-R116) -/

theorem operands_encode (i : Instr) : operands i.mnemonic (encode i) = i := by
  cases i with
  | nop | init | sfold | sfold8 | vrpi | tail => rfl
  | vseed a | vzero a | hred a | hash a =>
    simp [operands, Instr.mnemonic, encode, matchWord, BitVec.extractLsb'_or, extractLsb'_fieldAt]
  | vmac a o s =>
    simp [operands, Instr.mnemonic, encode, matchWord, BitVec.extractLsb'_or, extractLsb'_fieldAt,
      extractLsb'_fieldAt_of_disjoint]

/-- The command read off a word as row `k` encodes to the row's match with the bits of the word that the mask leaves. -/
theorem encode_operands (k : Mnemonic) (w : Word) :
    encode (operands k w) = matchWord k ||| w &&& ~~~maskWord k := by
  cases k with
  | nop | init | sfold | sfold8 | vrpi | tail => simp [operands, encode, Instr.mnemonic, maskWord]
  | vseed | vzero | hred | hash =>
    rw [operands, encode, fieldAt_extractLsb']
    rfl
  | vmac =>
    rw [operands, encode, fieldAt_extractLsb', fieldAt_extractLsb', fieldAt_extractLsb', ← BitVec.and_or_distrib_left,
      ← BitVec.and_or_distrib_left]
    rfl

/-- The encoder's word fits its row: the operands it carries stand where the mask is 0. -/
theorem encode_and_maskWord (i : Instr) : encode i &&& maskWord i.mnemonic = matchWord i.mnemonic := by
  have split : encode i = matchWord i.mnemonic ||| encode i &&& ~~~maskWord i.mnemonic := by
    rw [← encode_operands, operands_encode]
  rw [split, BitVec.and_or_distrib_right, matchWord_and_maskWord, BitVec.and_assoc]
  simp

/-- Settles O2: the encoder's word fits the command's row and carries its operands. -/
theorem decodeOfEncodeIsTheCommand : Obligations.DecodeOfEncodeIsTheCommand :=
  fun i wf => decode_eq_ok_iff.2 ⟨encode_and_maskWord i, operands_encode i, wf⟩

/-- Settles O3: the row's match is the word under the mask, and the operands are the rest of the word. -/
theorem encodeOfDecodeIsTheWord : Obligations.EncodeOfDecodeIsTheWord := by
  intro w i hd
  obtain ⟨fits, ops, wf⟩ := decode_eq_ok_iff.1 hd
  refine ⟨wf, ?_⟩
  calc encode i
      = matchWord i.mnemonic ||| w &&& ~~~maskWord i.mnemonic := by rw [← encode_operands, ops]
    _ = w &&& maskWord i.mnemonic ||| w &&& ~~~maskWord i.mnemonic := by rw [fits]
    _ = w := by rw [← BitVec.and_or_distrib_left, BitVec.or_not_self, BitVec.and_allOnes]

/-- Settles O1: the decoder evaluates on each word. -/
theorem wordsOfTheTableDecode : Obligations.WordsOfTheTableDecode := by
  unfold Obligations.WordsOfTheTableDecode
  decide

end Sys2Proof

namespace Sys2Proof.Machine

/-! ### ILLEGAL at acceptance (R118-R120) -/

/-- An idle CMD write of a word that is no command records ILLEGAL and nothing else (R234). -/
theorem hostAccess_write_cmd_of_illegal {s : State} {w : Word} (hb : s.status.busy = false)
    (hd : ∀ i, decode w ≠ .ok i) :
    hostAccess (s.accessAt 0x00C (.write w)) s = .next { s with status := s.status.withError .illegal } := by
  rw [hostAccess_write_cmd, submit_of_illegal hb hd, raise_eq]

/-- A word whose operands break its row's extra condition is no command (R118). -/
theorem decode_ne_ok_of_operands {w : Word} {k : Mnemonic} (hk : mnemonicOf (w.extractLsb' 0 8) = some k)
    (reserved : ¬ (operands k w).WellFormed) (i : Instr) : decode w ≠ .ok i := by
  intro hd
  obtain ⟨-, ops, wf⟩ := decode_eq_ok_iff.1 hd
  rw [mnemonic_of_decode hd hk] at ops
  exact reserved (ops ▸ wf)

/-- Settles O4: the reserved values are the operands that no well-formed VMAC or HASH carries. -/
theorem reservedFieldsAreIllegal : Obligations.ReservedFieldsAreIllegal := by
  intro s w hb reserved
  apply hostAccess_write_cmd_of_illegal hb
  obtain ⟨opc, hs⟩ | ⟨opc, hv⟩ := reserved
  · apply decode_ne_ok_of_operands (k := .vmac) (by rw [opc]; rfl)
    rw [operands, hs]
    exact (by decide : ¬ (3 : BitVec 2) != 3)
  · apply decode_ne_ok_of_operands (k := .hash) (by rw [opc]; rfl)
    obtain hv | hv := hv
    · rw [operands, hv]
      decide
    · rw [operands, hv]
      decide

/-- The bits a row's format gives to OPC or to an operand field: what is not reserved (R119). -/
def formatBits (k : Mnemonic) : Word := 0xFF ||| ~~~maskWord k

/-- A word that fits a row has no reserved bit: the match has none and the mask keeps them all. -/
theorem reservedBits_of_matches {w : Word} {k : Mnemonic} (fits : w &&& maskWord k = matchWord k) :
    w &&& ~~~formatBits k = 0 := by
  have kept : maskWord k &&& ~~~formatBits k = ~~~formatBits k := by cases k <;> rfl
  have clear : matchWord k &&& ~~~formatBits k = 0 := by cases k <;> rfl
  rw [← kept, ← BitVec.and_assoc, fits, clear]

/-- A word with a 1 in a reserved bit is no command (R119). -/
theorem decode_ne_ok_of_reservedBits {w : Word} {k : Mnemonic} (hk : mnemonicOf (w.extractLsb' 0 8) = some k)
    (reserved : w &&& ~~~formatBits k ≠ 0) (i : Instr) : decode w ≠ .ok i := by
  intro hd
  obtain ⟨fits, -, -⟩ := decode_eq_ok_iff.1 hd
  rw [mnemonic_of_decode hd hk] at fits
  exact reserved (reservedBits_of_matches fits)

/-- Settles O5: the listed pairs are the rows' OPC values and format bits. -/
theorem reservedBitsAreIllegal : Obligations.ReservedBitsAreIllegal := by
  intro s w opc used hb row hopc reserved
  have rows : (opc, used) ∈ [Mnemonic.nop, .init, .sfold, .sfold8, .vrpi, .tail, .vseed, .vzero, .vmac, .hred, .hash].map
      fun k => (matchWord k, formatBits k) := row
  obtain ⟨k, -, hk⟩ := List.mem_map.1 rows
  cases hk
  have hk : mnemonicOf (w.extractLsb' 0 8) = some k := by
    rw [← opc_and (m := 0xFF) (by decide), hopc, mnemonicOf_matchWord]
  exact hostAccess_write_cmd_of_illegal hb (decode_ne_ok_of_reservedBits hk reserved)

/-- A command's word has its row's OPC in its low byte. -/
theorem toNat_mod_of_decode {w : Word} {i : Instr} (hd : decode w = .ok i) :
    w.toNat % 256 = (matchWord i.mnemonic).toNat % 256 := by
  have h := congrArg BitVec.toNat (opc_of_matches (decode_eq_ok_iff.1 hd).1)
  rwa [BitVec.extractLsb'_toNat, BitVec.extractLsb'_toNat] at h

/-- Settles O6: none of the eleven rows has such an OPC. -/
theorem unassignedOpcodesAreIllegal : Obligations.UnassignedOpcodesAreIllegal := by
  intro s w hb unassigned
  apply hostAccess_write_cmd_of_illegal hb
  intro i hd
  rw [toNat_mod_of_decode hd] at unassigned
  revert unassigned
  cases i.mnemonic <;> decide

end Sys2Proof.Machine
end

section
/-! The scalar folds as commands (spec/41_scalar.md R160-R165): a command that folds n bytes, and a row of SFOLD
commands over the same bytes, leave the same H and POS. -/

namespace Sys2Proof.Machine

/-! ### Input bytes from a POS that has moved on -/

theorem inputWords_wraps (s : State) (p : Word) (k n : Nat) :
    s.inputWords (p + BitVec.ofNat 32 k).toNat n = s.inputWords (p.toNat + k) n :=
  List.map_congr_left fun j _ => inputByte_wraps s p k j

theorem admitsBytes_wraps (s : State) (p : Word) (k n : Nat) :
    s.admitsBytes (p + BitVec.ofNat 32 k).toNat n = s.admitsBytes (p.toNat + k) n := by
  induction n with
  | zero => rfl
  | succ n ih => simp only [State.admitsBytes, ih, ea_wraps]

/-! ### Completion with the next bytes folded -/

/-- `t` is `s` completed with the `n` bytes from POS folded into H and POS moved past them; every other register is as
in `s`, and no input byte is in use by a pending command. The record of performed commands is left open (log entry 8). -/
structure CompletedFold (s : State) (n : Nat) (t : State) : Prop where
  eq : t = { s.finish t with
    h := foldFrom s.h (s.inputWords s.pos.toNat n)
    pos := s.pos + BitVec.ofNat 32 n }
  reading : t.reading = []

namespace CompletedFold

variable {s t u : State} {m n : Nat}

theorem h (c : CompletedFold s n t) : t.h = foldFrom s.h (s.inputWords s.pos.toNat n) := by rw [c.eq]

theorem pos (c : CompletedFold s n t) : t.pos = s.pos + BitVec.ofNat 32 n := by rw [c.eq]

theorem breached (c : CompletedFold s n t) : t.breached = s.breached := by rw [c.eq]; rfl

theorem inputWords (c : CompletedFold s m t) :
    t.inputWords t.pos.toNat n = s.inputWords (s.pos.toNat + m) n := by
  have base : t.base = s.base := by rw [c.eq]; rfl
  have input : t.input = s.input := by rw [c.eq]; rfl
  rw [inputWords_congr base input, c.pos, inputWords_wraps]

theorem admitsBytes (c : CompletedFold s m t) :
    t.admitsBytes t.pos.toNat n = s.admitsBytes (s.pos.toNat + m) n := by
  have base : t.base = s.base := by rw [c.eq]; rfl
  have platform : t.platform = s.platform := by rw [c.eq]; rfl
  rw [admitsBytes_congr base platform, c.pos, admitsBytes_wraps]

/-- Folding `m` bytes and then `n` more is folding `m + n` bytes. -/
theorem trans (c : CompletedFold s m t) (d : CompletedFold t n u) : CompletedFold s (m + n) u := by
  refine ⟨?_, d.reading⟩
  have finish : t.finish u = { s.finish u with h := t.h, pos := t.pos } := by rw [c.eq]; rfl
  have folded : foldFrom t.h (t.inputWords t.pos.toNat n) = foldFrom s.h (s.inputWords s.pos.toNat (m + n)) := by
    rw [c.inputWords, c.h, inputWords_add, foldFrom_append]
  have moved : t.pos + BitVec.ofNat 32 n = s.pos + BitVec.ofNat 32 (m + n) := by
    rw [c.pos, BitVec.ofNat_add, add_assoc]
  conv_lhs => rw [d.eq, finish, folded, moved]

/-- Two completions of the same fold differ in the record of performed commands alone (log entry 8). -/
theorem eq_but_uses (c : CompletedFold s n t) (d : CompletedFold s n u) : u = { t with uses := u.uses } := by
  rw [c.eq]
  conv_lhs => rw [d.eq]
  simp only [State.finish, c.reading, d.reading]

end CompletedFold

/-! ### The commands -/

/-- A command whose body folds the next `n` bytes into H and keeps the accumulators completes that fold. -/
theorem exec_completesFold {i : Instr} {s : State} {f : State → State} {n : Nat} (hf : bodyOf i = some f)
    (hr : s.admitsBytes (readsOf s i).1 (readsOf s i).2 = true) (hb : s.breached = false)
    (hh : (f s).h = foldFrom s.h (s.inputWords s.pos.toNat n)) (hacc : (f s).acc = s.acc)
    (hpos : (f s).pos = s.pos + BitVec.ofNat 32 n) : ∃ t, exec i s = .next t ∧ CompletedFold s n t := by
  refine ⟨_, exec_result hf hr hb, ?_, retire_reading s i⟩
  rw [hh, hacc, hpos]
  rfl

theorem exec_sfold_completesFold {s : State} (hb : s.breached = false) (hr : s.admitsBytes s.pos.toNat 1 = true) :
    ∃ t, exec .sfold s = .next t ∧ CompletedFold s 1 t :=
  exec_completesFold rfl hr hb (sfoldStep_fold s) (sfoldStep_acc s) (sfoldStep_pos s)

theorem exec_sfold8_completesFold {s : State} (hb : s.breached = false) (hr : s.admitsBytes s.pos.toNat 8 = true) :
    ∃ t, exec .sfold8 s = .next t ∧ CompletedFold s 8 t :=
  exec_completesFold rfl hr hb ((sfold8Step_h s).trans (chunkFold_eq s)) (sfold8Step_acc s) (sfold8Step_pos s)

/-- From POS, the rest of the buffer ends at LEN. -/
theorem pos_add_rest {s : State} (h : s.pos.toNat ≤ s.len.toNat) :
    s.pos + BitVec.ofNat 32 (s.len.toNat - s.pos.toNat) = s.len :=
  BitVec.eq_of_toNat_eq (by rw [advance_pos_toNat (by omega)]; omega)

theorem exec_tail_completesFold {s : State} (hb : s.breached = false) (hle : s.pos.toNat ≤ s.len.toNat)
    (hr : s.admitsBytes s.pos.toNat (s.len.toNat - s.pos.toNat) = true) :
    ∃ t, exec .tail s = .next t ∧ CompletedFold s (s.len.toNat - s.pos.toNat) t := by
  obtain ⟨folds, atLen⟩ := tailStep_folds hle
  exact exec_completesFold rfl hr hb folds.h folds.acc (atLen.trans (pos_add_rest hle).symm)

theorem runCommands_cons {i : Instr} {s t : State} (h : exec i s = .next t) (rest : List Instr) :
    runCommands (i :: rest) s = runCommands rest t := by
  rw [runCommands, h]

/-- A row of SFOLD commands over admitted bytes folds them all; at least one, since no command completes nothing. -/
theorem runCommands_sfolds (n : Nat) {s : State} (hb : s.breached = false)
    (hr : s.admitsBytes s.pos.toNat (n + 1) = true) :
    ∃ t, runCommands (List.replicate (n + 1) .sfold) s = .next t ∧ CompletedFold s (n + 1) t := by
  induction n generalizing s with
  | zero =>
    obtain ⟨t, ht, c⟩ := exec_sfold_completesFold hb hr
    exact ⟨t, runCommands_cons ht [], c⟩
  | succ n ih =>
    obtain ⟨t, ht, c⟩ := exec_sfold_completesFold hb (admitsBytes_sub hr le_rfl (by omega))
    have rest : t.admitsBytes t.pos.toNat (n + 1) = true := by
      rw [c.admitsBytes]
      exact admitsBytes_sub hr (by omega) (by omega)
    obtain ⟨u, hu, d⟩ := ih (c.breached.trans hb) rest
    refine ⟨u, (runCommands_cons ht _).trans hu, ?_⟩
    rw [Nat.add_comm (n + 1) 1]
    exact c.trans d

/-- Settles O13: SFOLD8 and the row of eight SFOLD commands complete the same fold. -/
theorem sfoldEightIsEightSfolds : Obligations.SfoldEightIsEightSfolds := by
  intro s hb hr
  obtain ⟨t, ht, c⟩ := exec_sfold8_completesFold hb hr
  obtain ⟨u, hu, d⟩ := runCommands_sfolds 7 hb hr
  refine ⟨⟨t, ht, c.eq⟩, ⟨u, hu, d.h, d.pos⟩, ?_⟩
  simp only [foldFrom_inputWords, pow31_eq]

/-- A fold splits off its start, which leaves a fold from 0 (90_conflicts.md C4). -/
theorem foldFrom_eq_add (h : Word) (t : List Word) : foldFrom h t = h * pow31 t.length + foldFrom 0 t := by
  induction t generalizing h with
  | nil => simp
  | cons x xs ih =>
    rw [foldFrom_cons, foldFrom_cons, ih (31 * h + x), ih (31 * 0 + x), List.length_cons, pow31]
    ring

/-- Settles O14: TAIL and the row of LEN - POS0 SFOLD commands complete the same fold. -/
theorem tailFoldsTheRest : Obligations.TailFoldsTheRest := by
  refine ⟨fun s hb hle hr => ?_, fun h t => by rw [← pow31_eq, foldFrom_eq_add]⟩
  obtain ⟨t, ht, c⟩ := exec_tail_completesFold hb hle hr
  refine ⟨t, ht, by simpa only [pos_add_rest hle] using c.eq, fun notAtEnd => ?_⟩
  have some_left : s.pos.toNat ≠ s.len.toNat := fun e => notAtEnd (BitVec.eq_of_toNat_eq e)
  obtain ⟨n, hn⟩ : ∃ n, s.len.toNat - s.pos.toNat = n + 1 := Nat.exists_eq_succ_of_ne_zero (by omega)
  rw [hn] at c hr ⊢
  obtain ⟨u, hu, d⟩ := runCommands_sfolds n hb hr
  exact ⟨u, hu, c.eq_but_uses d⟩

end Sys2Proof.Machine
end

section
/-! The lane commands (spec/42_vector.md R180-R184): VRPI completes the fold of its block, and the horizontal sum carries
VMAC's lane-wise update over to one scalar. -/

namespace Sys2Proof.Machine

/-! ### VRPI as a fold (R181) -/

/-- VRPI's weighted block sum is the fold of the block's bytes into H (R181). -/
theorem vrpiStep_fold (s : State) : (vrpiStep s).h = foldFrom s.h (s.inputWords s.pos.toNat s.w) :=
  (vrpiStep_h s).trans (foldFrom_inputWords ..).symm

theorem exec_vrpi_completesFold {s : State} (hb : s.breached = false) (hr : s.admitsBytes s.pos.toNat s.w = true) :
    ∃ t, exec .vrpi s = .next t ∧ CompletedFold s s.w t :=
  exec_completesFold rfl hr hb (vrpiStep_fold s) (vrpiStep_acc s) (vrpiStep_pos s)

/-- Settles O15: VRPI and the row of W SFOLD commands complete the same fold. -/
theorem vrpiIsWSfolds : Obligations.VrpiIsWSfolds := by
  intro s hb hr
  obtain ⟨t, ht, c⟩ := exec_vrpi_completesFold hb hr
  obtain ⟨n, hn⟩ : ∃ n, s.w = n + 1 := Nat.exists_eq_succ_of_ne_zero (by have := s.two_le_w; omega)
  obtain ⟨u, hu, d⟩ := runCommands_sfolds n hb (hn ▸ hr)
  rw [← hn] at hu d
  refine ⟨⟨t, ht, c.eq⟩, ⟨u, hu, d.h, d.pos⟩, ?_⟩
  simp only [foldFrom_inputWords, pow31_eq]

/-! ### The horizontal sum is linear (R183) -/

theorem hsum_scale (w : Nat) (u : LaneVec) (c : Word) : hsum w (lanesOf w fun j => lane u j * c) = c * hsum w u := by
  rw [hsum_lanesOf, sumTo_mul_right, mul_comm, hsum]

theorem hsum_add (w : Nat) (u v : LaneVec) :
    hsum w (lanesOf w fun j => lane u j + lane v j) = hsum w u + hsum w v := by
  rw [hsum_lanesOf, sumTo_add, hsum, hsum]

/-- VMAC's body multiplies the accumulator's horizontal sum by STEP(S) and adds the sum of the weighted block. -/
theorem hsum_vmacStep (a o : Fin 4) (k : StepSel) (s : State) :
    hsum s.w ((vmacStep a o k s).accOf a) = stepConst s.w k * hsum s.w (s.accOf a) +
      sumTo (fun j => lane (s.loadBlock s.pos.toNat) j * weightLane s.w o j) s.w := by
  rw [vmacStep_accOf, if_pos rfl, hsum_lanesOf, sumTo_add, sumTo_mul_right, mul_comm, hsum]

/-- VMAC with its block admitted and the duty of R97 unbroken leaves the accumulators as its body does. -/
theorem exec_vmac_accOf (a o : BitVec 2) {st : BitVec 2} {k : StepSel} {s : State} (hk : stepOfField st = some k)
    (hb : s.breached = false) (hr : s.admitsBytes s.pos.toNat s.w = true) :
    ∃ t, exec (.vmac a o st) s = .next t ∧
      ∀ b, t.accOf b = (vmacStep (indexOfField a) (indexOfField o) k s).accOf b := by
  have body : bodyOf (.vmac a o st) = some (vmacStep (indexOfField a) (indexOfField o) k) := by rw [bodyOf, hk]; rfl
  exact ⟨_, exec_result body hr hb, accOf_congr rfl⟩

/-- Settles O17: the two linear laws, and VMAC's sum read off its body. -/
theorem horizontalSumIsLinear : Obligations.HorizontalSumIsLinear := by
  refine ⟨hsum_scale, hsum_add, fun s a o st k hk hb hr => ?_⟩
  obtain ⟨t, ht, hacc⟩ := exec_vmac_accOf a o hk hb hr
  exact ⟨t, ht, (congrArg (hsum s.w) (hacc _)).trans (hsum_vmacStep ..)⟩

end Sys2Proof.Machine
end

section
/-! HASH (spec/43_hash.md R200-R211): every variant's body is a head, which leaves the fold of whole blocks in H,
and then TAIL. For the vector variants the head is read off the accumulators in closed form (R209), whose total is
that fold (R211). -/

namespace Sys2Proof.Machine

/-! ### The unreduced accumulators in closed form (R209) -/

/-- Place `i` of a macro-block of `b` bytes after `n` macro-blocks: the seed's share, and the bytes found at that place,
each weighted by its distance to the end of the head (R209). -/
def headPlace (s : State) (b n i : Nat) : Word :=
  (if i = 0 then pow31 (b * n) else 0) +
    sumTo (fun m => s.inputByte (b * m + i) * pow31 (b * (n - 1 - m) + (b - 1 - i))) n

theorem headPlace_zero (s : State) (b i : Nat) : headPlace s b 0 i = if i = 0 then 1 else 0 := by
  simp [headPlace, sumTo]

/-- One more macro-block multiplies the place by 31^b and adds its new byte with the weight of the place. -/
theorem headPlace_succ (s : State) (b n i : Nat) : headPlace s b (n + 1) i =
    headPlace s b n i * pow31 b + s.inputByte (b * n + i) * pow31 (b - 1 - i) := by
  have earlier : sumTo (fun m => s.inputByte (b * m + i) * pow31 (b * (n + 1 - 1 - m) + (b - 1 - i))) n =
      sumTo (fun m => s.inputByte (b * m + i) * pow31 (b * (n - 1 - m) + (b - 1 - i))) n * pow31 b := by
    rw [← sumTo_mul_right]
    refine sumTo_congr fun m hm => ?_
    rw [show n + 1 - 1 - m = n - 1 - m + 1 by omega, Nat.mul_add_one, Nat.add_right_comm, pow31_add, mul_assoc]
  have seed : (if i = 0 then pow31 (b * (n + 1)) else 0) = (if i = 0 then pow31 (b * n) else 0) * pow31 b := by
    rw [Nat.mul_add_one, pow31_add, ite_mul, zero_mul]
  rw [headPlace, headPlace, sumTo, earlier, seed, Nat.add_sub_cancel, Nat.sub_self, Nat.mul_zero, Nat.zero_add]
  ring

/-- The places of all the accumulators add up to the fold of the head (R211). -/
theorem sumTo_headPlace (s : State) {b : Nat} (hb : 0 < b) (n : Nat) :
    sumTo (headPlace s b n) b = polyHash (s.inputWords 0 (n * b)) := by
  induction n with
  | zero =>
    rw [sumTo_congr fun i _ => headPlace_zero s b i, ← hsum_lanesOf, Nat.zero_mul]
    exact hsum_seedVec hb
  | succ n ih =>
    calc sumTo (headPlace s b (n + 1)) b
      _ = sumTo (headPlace s b n) b * pow31 b + sumTo (fun i => s.inputByte (b * n + i) * pow31 (b - 1 - i)) b := by
        rw [sumTo_congr fun i _ => headPlace_succ s b n i, sumTo_add, sumTo_mul_right]
      _ = foldFrom (polyHash (s.inputWords 0 (n * b))) (s.inputWords (n * b) b) := by
        rw [ih, foldFrom_inputWords, Nat.mul_comm b n]
      _ = polyHash (s.inputWords 0 ((n + 1) * b)) := by
        rw [polyHash, polyHash, Nat.add_one_mul, inputWords_add, foldFrom_append, Nat.zero_add]

/-- A sum over `u * w` places is the sum over `u` rows of `w` places each. -/
theorem sumTo_rows (f : Nat → Word) (u w : Nat) :
    sumTo f (u * w) = sumTo (fun q => sumTo (fun j => f (q * w + j)) w) u := by
  induction u with
  | zero => rw [Nat.zero_mul]; rfl
  | succ u ih => rw [Nat.add_one_mul, sumTo_append, ih, sumTo]

/-- A mask that selects the first `u` accumulators sums just those. -/
theorem maskedSum_first {m : BitVec 4} {u : Nat} (hu : u ≤ 4) (hm : ∀ q : Fin 4, maskHas m q.val = decide (q.val < u))
    {t : State} {g : Nat → Word} (hg : ∀ q : Fin 4, q.val < u → hsum t.w (t.accOf q) = g q.val) :
    maskedSum m t = sumTo g u := by
  have pick (q : Fin 4) : (if maskHas m q.val then hsum t.w (t.accOf q) else 0) = if q.val < u then g q.val else 0 := by
    by_cases hq : q.val < u
    · simp only [hm, hq, decide_true, if_true, hg q hq]
    · simp only [hm, hq, decide_false, if_false, Bool.false_eq_true]
  simp only [maskedSum, pick]
  interval_cases u <;> simp [sumTo]

theorem State.w_pos (s : State) : 0 < s.w := Nat.lt_of_lt_of_le Nat.two_pos s.two_le_w

/-! ### The head and the tail of a variant -/

/-- How many accumulators a variant carries: U in R209, and none for the variants that fold straight into H. -/
def Variant.accumulators : Variant → Nat
  | .scalar => 0
  | .unrolled => 0
  | .rpi => 0
  | .deferred => 1
  | .dual => 2
  | .quad => 4

/-- A variant's body up to its tail: the block loop and, for the vector variants, HRED. -/
def variantHead (v : Variant) (s : State) : State :=
  match v with
  | .scalar => s
  | .unrolled => loopFits 8 sfold8Step s
  | .rpi => loopFits s.w vrpiStep s
  | .deferred => hredStep 0b0001 (loopFits s.w (vmacStep 0 3 .one) s)
  | .dual => hredStep 0b0011 (loopFits (2 * s.w) dualBlock s)
  | .quad => hredStep 0b1111 (loopFits (4 * s.w) quadBlock s)

theorem variantBody_eq_tailStep (v : Variant) (s : State) : variantBody v s = tailStep (variantHead v s) := by
  cases v <;> rfl

/-- `t` has in H the fold of the bytes before its POS, which is within LEN, and differs from `s` in the datapath alone. -/
structure FoldsHead (s t : State) : Prop where
  only : OnlyDatapath s t
  fits : t.pos.toNat ≤ s.len.toNat
  h : t.h = polyHash (s.inputWords 0 t.pos.toNat)

theorem seedAll_foldsHead (s : State) : FoldsHead s (seedAll s) :=
  ⟨seedAll_only s, Nat.zero_le _, rfl⟩

/-- TAIL completes the fold of the whole buffer and keeps the accumulators (R165). -/
theorem FoldsHead.tail {s t : State} (head : FoldsHead s t) :
    (tailStep t).h = polyHash (s.inputWords 0 s.len.toNat) ∧ (tailStep t).acc = t.acc ∧ (tailStep t).pos = s.len := by
  have fits := head.fits
  obtain ⟨folds, atLen⟩ := tailStep_folds (s := t) (head.only.len ▸ fits)
  refine ⟨?_, folds.acc, atLen.trans head.only.len⟩
  have whole : s.len.toNat = t.pos.toNat + (s.len.toNat - t.pos.toNat) := by omega
  rw [folds.h, head.h, inputWords_congr head.only.base head.only.input, head.only.len, polyHash, polyHash,
    ← foldFrom_append]
  conv_rhs => rw [whole, inputWords_add, Nat.zero_add]

/-! ### The heads that fold straight into H (R202, R203) -/

/-- A loop of block folds from the seeded state folds its head and keeps the seeded accumulators. -/
theorem loopFits_foldsHead {s : State} {n : Nat} (hn : 0 < n) {f : State → State} (only : ∀ t, OnlyDatapath t (f t))
    (folds : ∀ t, OnlyDatapath s t → t.pos.toNat + n ≤ t.len.toNat → FoldsBlock n f t) :
    FoldsHead s (loopFits n f (seedAll s)) ∧ (loopFits n f (seedAll s)).acc = (seedAll s).acc := by
  have seeded := seedAll_only s
  have run : loopFits n f (seedAll s) = f^[s.len.toNat / n] (seedAll s) :=
    loopFits_eq_iterate (P := OnlyDatapath s) hn (fun t ho => ho.trans (only t))
      (fun t ho fits => ⟨(folds t ho fits).pos, (only t).len⟩) seeded
  have fits : (seedAll s).pos.toNat + s.len.toNat / n * n ≤ (seedAll s).len.toNat := by
    simpa using Nat.div_mul_le_self s.len.toNat n
  have all := iterate_folds (seedAll s) (fun t ho => folds t (seeded.trans ho)) fits
  rw [run]
  refine ⟨⟨seeded.trans all.only, all.pos ▸ fits, ?_⟩, all.acc⟩
  rw [all.h, all.pos, inputWords_congr seeded.base seeded.input]
  simp [polyHash]

theorem variantHead_of_no_accumulators {k : Variant} (hk : k.accumulators = 0) (s : State) :
    FoldsHead s (variantHead k (seedAll s)) ∧ (variantHead k (seedAll s)).acc = (seedAll s).acc := by
  cases k with
  | scalar => exact ⟨seedAll_foldsHead s, rfl⟩
  | unrolled => exact loopFits_foldsHead (by decide) sfold8Step_only fun t _ => sfold8Step_folds
  | rpi =>
    exact loopFits_foldsHead s.w_pos vrpiStep_only fun t ho fits => ho.w ▸ vrpiStep_folds (ho.w.symm ▸ fits)
  | deferred | dual | quad => cases hk

/-! ### The heads that carry accumulators (R204-R206) -/

/-- What `t` holds after `n` macro-blocks of `u` vector blocks: the first `u` accumulators in closed form, and zero in
the others (R209). -/
def HoldsHead (s : State) (u n : Nat) (t : State) : Prop :=
  ∀ (q : Fin 4) (j : Nat), j < s.w →
    lane (t.accOf q) j = if q.val < u then headPlace s (u * s.w) n (q.val * s.w + j) else 0

/-- Before the first macro-block ACC[0] holds the seed e0 at place 0 (R200). -/
theorem seedAll_lane (s : State) (q : Fin 4) {j : Nat} (hj : j < s.w) :
    lane ((seedAll s).accOf q) j = if q = 0 ∧ j = 0 then 1 else 0 := by
  rw [seedAll_accOf]
  by_cases hq : q = 0 <;> simp [hq, seedVec, zeroVec, lane_lanesOf _ hj]

theorem place_eq_zero_iff (s : State) {q : Fin 4} {j : Nat} : q.val * s.w + j = 0 ↔ q = 0 ∧ j = 0 := by
  rw [Nat.add_eq_zero_iff, Nat.mul_eq_zero, or_iff_left s.w_pos.ne', Fin.ext_iff, Fin.val_zero]

/-- The closed form as R209 writes it, by accumulator and lane. -/
theorem headPlace_lane (s : State) {u n j : Nat} {q : Fin 4} (hq : q.val < u) (hj : j < s.w) :
    headPlace s (u * s.w) n (q.val * s.w + j) =
      (if q = 0 ∧ j = 0 then BitVec.ofNat 32 (31 ^ (u * s.w * n)) else 0) +
        sumTo (fun m => s.inputByte (u * s.w * m + q.val * s.w + j) *
          BitVec.ofNat 32 (31 ^ (u * s.w * (n - 1 - m) + u * s.w - 1 - q.val * s.w - j))) n := by
  have inBlock : (q.val + 1) * s.w ≤ u * s.w := Nat.mul_le_mul_right _ hq
  rw [Nat.add_one_mul] at inBlock
  rw [headPlace, if_congr (place_eq_zero_iff s) rfl rfl]
  simp only [← pow31_eq]
  congr 1
  refine sumTo_congr fun m _ => ?_
  congr 2 <;> omega

theorem seedAll_holdsHead (s : State) {u : Nat} (hu : 0 < u) : HoldsHead s u 0 (seedAll s) := by
  intro q j hj
  rw [seedAll_lane s q hj, headPlace_zero, if_congr (place_eq_zero_iff s) rfl rfl]
  by_cases hq : q.val < u
  · rw [if_pos hq]
  · rw [if_neg hq, if_neg]
    rintro ⟨rfl, -⟩
    exact hq hu

/-- A macro-block takes the closed form from `n` to `n + 1`. -/
theorem MacroBlock.holdsHead {s : State} {u : Nat} {f : State → State} (block : MacroBlock s u f) {n : Nat} {t : State}
    (ho : OnlyDatapath s t) (hpos : t.pos.toNat = n * (u * s.w)) (holds : HoldsHead s u n t) :
    HoldsHead s u (n + 1) (f t) := by
  intro q j hj
  by_cases hq : q.val < u
  · rw [if_pos hq, block.lanes t ho q j hj hq, holds q j hj, if_pos hq, headPlace_succ, hpos, Nat.mul_comm n,
      Nat.add_assoc, Nat.sub_sub _ _ j]
  · rw [if_neg hq, block.others t q (by omega), holds q j hj, if_neg hq]

/-- The loop of macro-blocks from the seeded state leaves the closed form of all the full macro-blocks. -/
theorem MacroBlock.loop_holdsHead {s : State} {u : Nat} {f : State → State} (block : MacroBlock s u f) (hu : 0 < u) :
    OnlyDatapath s (loopFits (u * s.w) f (seedAll s)) ∧
    (loopFits (u * s.w) f (seedAll s)).pos.toNat = s.len.toNat / (u * s.w) * (u * s.w) ∧
    HoldsHead s u (s.len.toNat / (u * s.w)) (loopFits (u * s.w) f (seedAll s)) := by
  have b_pos : 0 < u * s.w := Nat.mul_pos hu s.w_pos
  have run : loopFits (u * s.w) f (seedAll s) = f^[s.len.toNat / (u * s.w)] (seedAll s) :=
    loopFits_eq_iterate (P := OnlyDatapath s) b_pos (fun t ho => ho.trans (block.only t))
      (fun t ho fits => ⟨block.pos t ho fits, (block.only t).len⟩) (seedAll_only s)
  have fits : (seedAll s).pos.toNat + s.len.toNat / (u * s.w) * (u * s.w) ≤ (seedAll s).len.toNat := by
    simpa using Nat.div_mul_le_self s.len.toNat (u * s.w)
  obtain ⟨⟨only, holds⟩, pos, -⟩ := iterate_induct (f := f)
    (P := fun n t => OnlyDatapath s t ∧ HoldsHead s u n t) ⟨seedAll_only s, seedAll_holdsHead s hu⟩
    (fun n t ⟨ho, holds⟩ hpos _ fits => ⟨⟨ho.trans (block.only t), block.holdsHead ho (by simpa using hpos) holds⟩,
      block.pos t ho fits, (block.only t).len⟩) fits
  rw [run]
  exact ⟨only, by simpa using pos, holds⟩

/-- HRED over the accumulators in use turns the closed form into the fold of the head (R211). -/
theorem MacroBlock.foldsHead {s : State} {u : Nat} {f : State → State} (block : MacroBlock s u f) (hu : 0 < u)
    (hu4 : u ≤ 4) {m : BitVec 4} (hm : ∀ q : Fin 4, maskHas m q.val = decide (q.val < u)) :
    FoldsHead s (hredStep m (loopFits (u * s.w) f (seedAll s))) ∧
    HoldsHead s u (s.len.toNat / (u * s.w)) (hredStep m (loopFits (u * s.w) f (seedAll s))) := by
  obtain ⟨only, pos, holds⟩ := block.loop_holdsHead hu
  refine ⟨⟨only.trans (hredStep_only ..), ?_, ?_⟩, holds⟩
  · rw [hredStep_pos, pos]
    exact Nat.div_mul_le_self ..
  · have b_pos : 0 < u * s.w := Nat.mul_pos hu s.w_pos
    rw [hredStep_h, hredStep_pos, pos, ← sumTo_headPlace s b_pos, sumTo_rows]
    refine maskedSum_first hu4 hm fun q hq => ?_
    rw [only.w]
    exact sumTo_congr fun j hj => (holds q j hj).trans (if_pos hq)

theorem variantHead_of_accumulators {k : Variant} (hk : 0 < k.accumulators) (s : State) :
    FoldsHead s (variantHead k (seedAll s)) ∧
    HoldsHead s k.accumulators (s.len.toNat / (k.accumulators * s.w)) (variantHead k (seedAll s)) := by
  cases k with
  | scalar | unrolled | rpi => cases hk
  | deferred =>
    have head := (deferredBlock s).foldsHead (m := 0b0001) (by decide) (by decide) (by decide)
    rw [Nat.one_mul] at head
    rw [Variant.accumulators, Nat.one_mul]
    exact head
  | dual => exact (dualMacroBlock s).foldsHead (by decide) (by decide) (by decide)
  | quad => exact (quadMacroBlock s).foldsHead (by decide) (by decide) (by decide)

theorem variantHead_foldsHead (k : Variant) (s : State) : FoldsHead s (variantHead k (seedAll s)) := by
  rcases Nat.eq_zero_or_pos k.accumulators with hk | hk
  · exact (variantHead_of_no_accumulators hk s).1
  · exact (variantHead_of_accumulators hk s).1

/-! ### The command -/

/-- HASH with its bytes admitted and the duty of R97 unbroken: the fold of the whole buffer in H, POS at LEN, and the
accumulators as the variant's head left them. -/
theorem exec_hash {v : BitVec 3} {k : Variant} (hk : variantOfField v = some k) {s : State} (hb : s.breached = false)
    (hr : s.admitsBytes 0 s.len.toNat = true) :
    exec (.hash v) s = .next { s.finish (retire (.hash v) s) with
      h := polyHash (s.inputWords 0 s.len.toNat)
      acc := (variantHead k (seedAll s)).acc
      pos := s.len } := by
  have body : bodyOf (.hash v) = some (hashStep k) := by rw [bodyOf, hk]; rfl
  obtain ⟨h, acc, pos⟩ := (variantHead_foldsHead k s).tail
  rw [exec_result body hr hb, hashStep, variantBody_eq_tailStep, h, acc, pos]

/-- A HASH command with a body names a variant. -/
theorem variantOfField_of_bodyOf {v : BitVec 3} {f : State → State} (hf : bodyOf (.hash v) = some f) :
    ∃ k, variantOfField v = some k :=
  (Option.map_eq_some_iff.1 hf).imp fun _ => And.left

/-- Settles O19: the head of every variant holds its fold in H, and TAIL folds the rest. -/
theorem hashIsThePolynomialHash : Obligations.HashIsThePolynomialHash := by
  intro s v hv hb hr
  obtain ⟨f, hf⟩ := bodyOf_wellFormed (i := .hash v) (decide_eq_true hv)
  obtain ⟨k, hk⟩ := variantOfField_of_bodyOf hf
  exact ⟨_, exec_hash hk hb hr, rfl, rfl⟩

/-- Settles O20: the seeded accumulators where the variant folds into H, and the closed form after all full macro-blocks
where it carries accumulators. -/
theorem hashLeavesTheUnreducedAccumulators : Obligations.HashLeavesTheUnreducedAccumulators := by
  intro s v hb hr
  constructor
  · intro hv
    have folding : ∀ v : BitVec 3, v.toNat ≤ 2 → (variantOfField v).map Variant.accumulators = some 0 := by decide
    obtain ⟨k, hk, no_acc⟩ := Option.map_eq_some_iff.1 (folding v hv)
    refine ⟨_, exec_hash hk hb hr, rfl, fun a j hj => ?_⟩
    exact (congrArg (lane · j) (accOf_congr (variantHead_of_no_accumulators no_acc s).2 a)).trans (seedAll_lane s a hj)
  · intro u hu
    have carrying : ∀ v : BitVec 3, ∀ p ∈ [(3, 1), (4, 2), (5, 4)], v.toNat = p.1 →
        (variantOfField v).map Variant.accumulators = some p.2 ∧ 0 < p.2 := by decide
    obtain ⟨accs, u_pos⟩ := carrying v (v.toNat, u) hu rfl
    obtain ⟨k, hk, rfl⟩ := Option.map_eq_some_iff.1 accs
    refine ⟨_, exec_hash hk hb hr, rfl, fun q j hj => ?_⟩
    refine ((variantHead_of_accumulators u_pos s).2 q j hj).trans ?_
    split
    · exact headPlace_lane s ‹_› hj
    · rfl

/-- Settles O21: H is the fold of the input words, and those are equal. -/
theorem hashDependsOnlyOnTheBuffer : Obligations.HashDependsOnlyOnTheBuffer := by
  intro s s' t t' v hb hb' hr hr' hlen bytes ht ht'
  obtain ⟨f, hf, -⟩ := exec_next ht
  obtain ⟨k, hk⟩ := variantOfField_of_bodyOf hf
  have words : s.inputWords 0 s.len.toNat = s'.inputWords 0 s'.len.toNat := by
    rw [← hlen]
    exact List.map_congr_left fun i hi => by simpa using bytes i (List.mem_range.1 hi)
  rw [exec_hash hk hb hr] at ht
  rw [exec_hash hk hb' hr'] at ht'
  cases ht
  cases ht'
  exact congrArg polyHash words

end Sys2Proof.Machine
end

section
/-! The reset signal (spec/70_reset_and_hazards.md R260): the step that takes it, and what it leaves in irq and in the
accumulators. Its other registers are the field lemmas of the state layer. -/

namespace Sys2Proof.Machine

/-- The reset event at the head of the schedule is the next step, whatever the engine is doing (R260). -/
theorem step_reset {s : State} {rest : List Event} (hs : s.schedule = .reset :: rest) :
    step s = .next (resetSignal { s with schedule := rest }) := by
  rw [step, nextTurn, hs, runTurn]

/-- With IE clear after the reset signal, irq is 0 (R239). -/
@[simp] theorem resetSignal_irq (s : State) : (resetSignal s).irq = false := by
  rw [State.irq, resetSignal_ie, Bool.false_and]

/-- The reset values of the accumulators are those of the seeding: e0 in ACC[0], zero in the others (R260). -/
theorem resetSignal_lane (s : State) (a : Fin 4) {j : Nat} (hj : j < s.w) :
    lane ((resetSignal s).accOf a) j = if a = 0 ∧ j = 0 then 1 else 0 := by
  have seeded : (resetSignal s).accOf a = (seedAll s).accOf a := accOf_congr rfl a
  rw [seeded, seedAll_lane s a hj]

/-- Settles O51: the step is the reset signal in the state whose schedule has moved on. -/
theorem resetSignalRestoresEveryRegister : Obligations.ResetSignalRestoresEveryRegister := by
  intro s rest hs
  exact ⟨_, step_reset hs, rfl, resetSignal_irq _, fun a _ hj => resetSignal_lane _ a hj⟩

end Sys2Proof.Machine
end

section
/-! The machine's invariant (spec/10_state.md section 4; spec/60_exceptions.md section 2): what the engine, a host access,
a changed input byte and the reset signal each keep of it, and so every step. -/

namespace Sys2Proof.Machine

/-! ### STATUS (R39, R42) -/

/-- Recording an error keeps STATUS coherent (R233). -/
theorem raiseStatus_coherent {t : Status} {p : Option Word} (h : t.Coherent p) {c : ErrCode} (hc : c ≠ .none) :
    (raiseStatus c t).Coherent p := by
  refine ⟨(raiseStatus_busy c t).trans h.busy_iff, ?_, fun hb => ?_⟩
  · cases herr : t.err with
    | false => simp [raiseStatus_code_of_clear c t herr, hc]
    | true => simp [raiseStatus_code_of_err c t herr, ← h.code_iff, herr]
  · rw [raiseStatus_done]
    exact h.done_idle (raiseStatus_busy c t ▸ hb)

/-- The write-1-to-clear rule clears ERR and ERRCODE together and never sets DONE (R39). -/
theorem clearStatus_coherent {t : Status} {p : Option Word} (h : t.Coherent p) (v : Word) :
    (clearStatus v t).Coherent p := by
  rw [clearStatus_eq]
  refine ⟨h.busy_iff, ?_, fun hb => ?_⟩
  · cases v.getLsbD 2 with
    | false => simpa using h.code_iff
    | true => simp
  · cases v.getLsbD 1 with
    | false => simpa using h.done_idle hb
    | true => rfl

/-- A STATUS with BUSY clear is coherent with nothing pending, whatever DONE is. -/
theorem coherent_of_idle {t : Status} (hb : t.busy = false) (hc : t.err = false ↔ t.code = .none) :
    t.Coherent none :=
  ⟨hb, hc, fun h => by rw [hb] at h; cases h⟩

/-! ### The invariant -/

/-- With BUSY clear nothing is pending. -/
theorem State.Inv.pending_of_idle {s : State} (h : s.Inv) (hb : s.status.busy = false) : s.pending = none := by
  rw [h.status.busy_iff] at hb
  simpa using hb

/-- With nothing pending the invariant is about STATUS, the lanes and the input memory. -/
theorem inv_of_idle {s : State} (hp : s.pending = none) (hs : s.status.Coherent none) (hl : FullLanes s)
    (hm : Memory.wf s.input) (hb : s.breached = false) (hr : s.reading = []) : s.Inv where
  status := hp ▸ hs
  accepted := fun w hw => by rw [hp] at hw; cases hw
  lanes := hl
  memory := hm
  breach := fun h => by rw [hb] at h; cases h
  idle := fun _ => hr

/-- What is still to come is no part of the invariant. -/
theorem State.Inv.withSchedule {s : State} (h : s.Inv) (e : List Event) : State.Inv { s with schedule := e } :=
  ⟨h.status, h.accepted, h.lanes, h.memory, h.breach, h.idle⟩

/-- A change of STATUS alone keeps the invariant where STATUS stays coherent. -/
theorem State.Inv.withStatus {s : State} (h : s.Inv) {t : Status} (ht : t.Coherent s.pending) :
    State.Inv { s with status := t } :=
  ⟨ht, h.accepted, h.lanes, h.memory, h.breach, h.idle⟩

/-! ### The four kinds of step -/

/-- A command leaves nothing pending and STATUS coherent, whether it completes or aborts (R42, R236). -/
theorem exec_keeps_inv {i : Instr} {s t : State} (h : s.Inv) (ht : exec i s = .next t) : t.Inv := by
  obtain ⟨f, hf, ⟨-, rfl⟩ | ⟨-, rfl⟩⟩ := exec_next ht
  · have body := body_only hf s
    have lanes : FullLanes (complete i (f s)) := by
      unfold complete
      split
      · exact redraw_fullLanes _
      · exact (body_fullLanes hf h.lanes).congr rfl rfl
    refine inv_of_idle (complete_pending ..) ?_ lanes ?_ (complete_breached ..) (complete_reading ..)
    · rw [complete_status, body.status]
      exact coherent_of_idle rfl h.status.code_iff
    · rw [complete_input, body.input]
      exact h.memory
  · refine inv_of_idle (busAbort_pending ..) ?_ (redraw_fullLanes _) h.memory (busAbort_breached ..)
      (busAbort_reading ..)
    rw [busAbort_status]
    exact coherent_of_idle rfl (raiseStatus_coherent h.status (by decide)).code_iff

theorem raise_keeps_inv {s : State} (h : s.Inv) {c : ErrCode} (hc : c ≠ .none) : (raise c s).Inv :=
  h.withStatus (raiseStatus_coherent h.status hc)

/-- A CMD write that is accepted has passed the checks that the invariant asks of the pending word (R234). -/
theorem submit_keeps_inv {s : State} (h : s.Inv) (w : Word) : (submit w s).Inv := by
  obtain ⟨c, hc, hw⟩ | ⟨-, i, hd, hr, hw⟩ := submit_cases w s
  · rw [hw]
    exact raise_keeps_inv h hc
  · rw [hw]
    exact
      { status := ⟨rfl, h.status.code_iff, fun _ => rfl⟩
        accepted := fun _ hw => ⟨i, Option.some.inj hw ▸ hd, hr⟩
        lanes := h.lanes
        memory := h.memory
        breach := fun _ => rfl
        idle := nofun }

/-- While nothing is pending, the registers that no other field depends on may take any value. -/
theorem State.Inv.idleFrame {s t : State} (h : s.Inv) (hp : s.pending = none) (hl : FullLanes t)
    (frame : t = { s with h := t.h, acc := t.acc, pos := t.pos, len := t.len, base := t.base, uses := t.uses }) :
    t.Inv := by
  have unbroken : s.breached = false := by
    by_contra hb
    have := h.breach (by simpa using hb)
    rw [hp] at this
    cases this
  rw [frame] at hl ⊢
  exact inv_of_idle hp (hp ▸ h.status) hl h.memory unbroken (h.idle hp)

/-- A guarded write is dropped with an error, or happens while nothing is pending. -/
theorem writeIdle_keeps_inv {s : State} (h : s.Inv) (set : State → State) (hl : FullLanes (set s))
    (frame : set s = { s with
      h := (set s).h, acc := (set s).acc, pos := (set s).pos, len := (set s).len, base := (set s).base
      uses := (set s).uses }) : (writeIdle set s).Inv := by
  obtain ⟨-, hw⟩ | ⟨hb, hw⟩ := writeIdle_cases set s
  · rw [hw]
    exact raise_keeps_inv h (by decide)
  · rw [hw]
    exact h.idleFrame (h.pending_of_idle hb) hl frame

theorem regWrite_keeps_inv {s : State} (h : s.Inv) (r : Reg) (v : Word) : (regWrite r v s).Inv := by
  cases r with
  | param | pow | reserved => exact h
  | ctrl => exact ⟨h.status, h.accepted, h.lanes, h.memory, h.breach, h.idle⟩
  | status => exact h.withStatus (clearStatus_coherent h.status v)
  | cmd => exact submit_keeps_inv h v
  | base | len | pos | h =>
    rw [regWrite]
    exact writeIdle_keeps_inv h _ h.lanes rfl
  | acc a j =>
    rw [regWrite]
    exact writeIdle_keeps_inv h _ (setAcc_fullLanes (s := s.remark _) h.lanes a (length_lanesOf ..)) rfl

theorem busRead_keeps_inv {s : State} (h : s.Inv) (r : Reg) : (busRead r s).Inv := by
  have idle : s.pending = none → (busRead r s).reading = [] := by
    intro hp
    unfold busRead
    split
    · exact h.idle hp
    · simp only [h.idle hp, ite_self]
  rw [busRead_only]
  exact ⟨h.status, h.accepted, h.lanes, h.memory, h.breach, idle⟩

theorem hostAccess_keeps_inv {a : HostAccess} {s t : State} (h : s.Inv) (ht : hostAccess a s = .next t) : t.Inv := by
  obtain ⟨-, -, -, -, ⟨-, rfl⟩ | ⟨v, -, rfl⟩⟩ := hostAccess_next ht
  · exact busRead_keeps_inv h _
  · exact regWrite_keeps_inv h _ v

/-- Values that become unspecified keep the invariant: a drawn POS still passes the pending command's RANGE check. -/
theorem spoil_keeps_inv {s : State} (h : s.Inv) (a : Word) : (spoil a s).Inv where
  status := by rw [spoil_status, spoil_pending]; exact h.status
  accepted := fun w hw => by
    rw [spoil_pending] at hw
    obtain ⟨i, hd, hr⟩ := h.accepted w hw
    exact ⟨i, hd, spoil_rangeOk hw hd hr a⟩
  lanes := spoil_fullLanes h.lanes a
  memory := by rw [spoil_input]; exact h.memory
  breach := by rw [spoil_breached, spoil_pending]; exact h.breach
  idle := fun hp => spoil_reading_nil (h.idle (spoil_pending s a ▸ hp)) a

/-- A byte that changes breaks the duty of R97 only for a command that reads, and such a command is pending. -/
theorem storeByte_keeps_inv {s : State} (h : s.Inv) (a : Word) (b : Byte) : (storeByte a b s).Inv := by
  have written : State.Inv { s with input := writeCell s.input a.toNat b } :=
    ⟨h.status, h.accepted, h.lanes, writeCell_keeps_wf h.memory a.isLt b, h.breach, h.idle⟩
  have spoiled := spoil_keeps_inv written a
  cases hr : s.reading.any (fun r => r.has a) with
  | false =>
    rw [storeByte_of_not_reading b hr]
    exact spoiled
  | true =>
    have busy : s.pending.isSome = true := by
      by_contra hp
      rw [h.idle (by simpa using hp)] at hr
      cases hr
    rw [storeByte_of_reading b hr]
    refine ⟨spoiled.status, spoiled.accepted, spoiled.lanes, spoiled.memory, fun _ => ?_, spoiled.idle⟩
    rw [spoil_pending]
    exact busy

/-- The reset signal leaves the invariant, of whatever state (R260). -/
theorem resetSignal_inv {s : State} (hm : Memory.wf s.input) : (resetSignal s).Inv :=
  inv_of_idle rfl (coherent_of_idle rfl (by simp)) ((seedAll_fullLanes s).congr rfl rfl) hm rfl rfl

/-- Settles O54: each kind of step keeps the invariant. -/
theorem stepKeepsTheInvariant : Obligations.StepKeepsTheInvariant := by
  intro s t h ht
  obtain ⟨w, i, -, -, hx⟩ | ⟨a, rest, -, ha⟩ | ⟨a, b, rest, -, rfl⟩ | ⟨rest, -, rfl⟩ | ⟨-, rfl⟩ := step_next ht
  · exact exec_keeps_inv (h.withSchedule _) hx
  · exact hostAccess_keeps_inv (h.withSchedule _) ha
  · exact storeByte_keeps_inv (h.withSchedule _) a b
  · exact resetSignal_inv h.memory
  · exact h.withSchedule _

/-- Settles O53: the reset state is what the reset signal makes of itself, with no byte placed. -/
theorem resetMeetsTheInvariant : Obligations.ResetMeetsTheInvariant :=
  resetSignal_inv (s := State.reset) wf_reset_memory

end Sys2Proof.Machine
end

section
/-! What the engine leaves after a command: completion or the BUSERR abort (spec/10_state.md R42; spec/60_exceptions.md
R236, R239; spec/70_reset_and_hazards.md R277), and completion with the duty of R97 broken (spec/20_memory.md). -/

namespace Sys2Proof.Machine

/-! ### Completion or abort (R42, R236) -/

/-- The two ends of a command as STATUS shows them. -/
theorem exec_status {i : Instr} {s t : State} (h : exec i s = .next t) :
    t.status = { s.status with busy := false, done := true } ∨
    t.status = { s.status.withError .busErr with busy := false } := by
  obtain ⟨f, hf, ⟨-, rfl⟩ | ⟨-, rfl⟩⟩ := exec_next h
  · exact .inl (by rw [complete_status, (body_only hf s).status])
  · exact .inr (by rw [busAbort_status, raiseStatus_eq])

theorem exec_pending {i : Instr} {s t : State} (h : exec i s = .next t) : t.pending = none := by
  obtain ⟨f, -, ⟨-, rfl⟩ | ⟨-, rfl⟩⟩ := exec_next h
  · exact complete_pending ..
  · exact busAbort_pending ..

theorem exec_breached {i : Instr} {s t : State} (h : exec i s = .next t) : t.breached = false := by
  obtain ⟨f, -, ⟨-, rfl⟩ | ⟨-, rfl⟩⟩ := exec_next h
  · exact complete_breached ..
  · exact busAbort_breached ..

/-- Settles O26: STATUS after completion and after the abort. -/
theorem engineCompletesOrAborts : Obligations.EngineCompletesOrAborts :=
  fun _ _ _ h => ⟨exec_pending h, exec_breached h, exec_status h⟩

/-- Settles O29: completion keeps ERR clear and sets DONE; the abort records BUSERR, since no error stands before it. -/
theorem completionWithoutErrorEndsWell : Obligations.CompletionWithoutErrorEndsWell := by
  intro i s t h herr
  obtain hs | hs := exec_status h
  · exact .inl ⟨exec_pending h, by rw [hs]; exact herr, by rw [hs]⟩
  · refine .inr ⟨by rw [hs]; rfl, ?_⟩
    rw [hs]
    simp [Status.withError, herr]

/-- After a command DONE or ERR is set, so irq is the enable (R239). -/
theorem exec_irq {i : Instr} {s t : State} (h : exec i s = .next t) : t.irq = s.ie := by
  obtain ⟨-, -, hie, -⟩ := commandsKeepConfigurationAndMemory i s t h
  have raised : (t.status.done || t.status.err) = true := by
    obtain hs | hs := exec_status h
    · rw [hs, Bool.true_or]
    · rw [hs]
      exact Bool.or_true _
  rw [State.irq, raised, hie, Bool.and_true]

/-- Settles O50: the level after a command, the mask, the acknowledging write, and the reset signal. -/
theorem interruptFollowsStatus : Obligations.InterruptFollowsStatus := by
  refine ⟨fun i s t => exec_irq, fun s hie => ?masked,
    fun s v hv1 hv2 => ⟨_, hostAccess_write_status s v, ?acknowledged⟩, resetSignal_irq⟩
  case masked => rw [State.irq, hie, Bool.false_and]
  case acknowledged =>
    rw [hv1, hv2]
    exact Bool.and_false _

/-- Settles O24: a command that is not well-formed has a field value that selects nothing. -/
theorem reservedFieldsStopTheEngine : Obligations.ReservedFieldsStopTheEngine := by
  intro s i reserved
  have noBody : bodyOf i = none := by
    cases i with
    | vmac a o st =>
      have stop : ∀ st : BitVec 2, (st != 3) = false → stepOfField st = none := by decide
      rw [bodyOf, stop st (by simpa [Instr.WellFormed, Instr.wellFormed] using reserved), Option.map_none]
    | hash v =>
      have stop : ∀ v : BitVec 3, ¬ v.toNat ≤ 5 → variantOfField v = none := by decide
      rw [bodyOf, stop v (by simpa [Instr.WellFormed, Instr.wellFormed] using reserved), Option.map_none]
    | _ => exact absurd rfl reserved
  rw [exec_eq, noBody]

/-! ### A byte that is not admitted (R236) -/

theorem admitsBytes_of_inadmissible {s : State} {lo n k : Nat} (hlo : lo ≤ k) (hhi : k < lo + n)
    (bad : s.platform.admits (s.ea k) = false) : s.admitsBytes lo n = false := by
  by_contra h
  have admitted := (admitsBytes_iff s lo n).1 (by simpa using h) (k - lo) (by omega)
  rw [Nat.add_sub_of_le hlo, bad] at admitted
  cases admitted

/-- The state after the abort, register by register. -/
theorem busAbort_eq (i : Instr) (s : State) :
    busAbort i s = { s with
      pending := none
      reading := (busAbort i s).reading
      uses := (busAbort i s).uses
      breached := false
      status := { s.status.withError .busErr with busy := false }
      h := Config.draw s.draws
      pos := Config.draw (s.draws + 1)
      acc := (busAbort i s).acc
      draws := s.draws + 2 + 4 * s.w } := by
  rw [← raiseStatus_eq]
  rfl

/-- One inadmissible byte among those a well-formed command reads is enough for the abort. -/
theorem exec_of_inadmissible {i : Instr} {s : State} {k : Nat} (hi : i.WellFormed) (hlo : (readsOf s i).1 ≤ k)
    (hhi : k < (readsOf s i).1 + (readsOf s i).2) (bad : s.platform.admits (s.ea k) = false) :
    exec i s = .next (busAbort i s) := by
  obtain ⟨f, hf⟩ := bodyOf_wellFormed hi
  exact exec_aborts hf (admitsBytes_of_inadmissible hlo hhi bad)

/-- Settles O27: each command's bytes are those `readsOf` lists. -/
theorem inadmissibleInputAborts : Obligations.InadmissibleInputAborts := by
  intro s i reads
  have aborts : exec i s = .next (busAbort i s) := by
    obtain ⟨rfl, bad⟩ | ⟨rfl, k, hk, bad⟩ | ⟨rfl | ⟨a, o, st, hst, rfl⟩, k, hk, bad⟩ | ⟨rfl, k, hlo, hhi, bad⟩ |
      ⟨v, hv, rfl, k, hk, bad⟩ := reads
    · exact exec_of_inadmissible rfl (Nat.le_refl _) (Nat.lt_succ_self _) bad
    · exact exec_of_inadmissible rfl (Nat.le_add_right ..) (Nat.add_lt_add_left hk _) bad
    · exact exec_of_inadmissible rfl (Nat.le_add_right ..) (Nat.add_lt_add_left hk _) bad
    · exact exec_of_inadmissible (bne_iff_ne.2 hst) (Nat.le_add_right ..) (Nat.add_lt_add_left hk _) bad
    · exact exec_of_inadmissible rfl hlo (by simp only [readsOf]; omega) bad
    · exact exec_of_inadmissible (decide_eq_true hv) (Nat.zero_le _) (by simpa [readsOf] using hk) bad
  exact ⟨_, aborts, busAbort_eq i s, fun a j hj => redraw_lane _ a hj⟩

/-! ### An accepted command over an admitted buffer -/

/-- Where the RANGE check held, a command reads inside the buffer (R237). -/
theorem reads_within {s : State} {i : Instr} (hr : rangeOk s i = true) :
    (readsOf s i).1 + (readsOf s i).2 ≤ s.len.toNat := by
  rw [rangeOk_iff] at hr
  cases i with
  | nop | init | vseed | vzero | hred => exact Nat.zero_le _
  | sfold | sfold8 | vrpi | vmac => exact hr _ rfl
  | tail => exact (Nat.add_sub_of_le (hr 0 rfl)).le
  | hash => exact (Nat.zero_add _).le

theorem reads_admitted {s : State} {i : Instr} (hr : rangeOk s i = true) (hadm : s.admitsBytes 0 s.len.toNat = true) :
    s.admitsBytes (readsOf s i).1 (readsOf s i).2 = true :=
  admitsBytes_sub hadm (Nat.zero_le _) (by rw [Nat.zero_add]; exact reads_within hr)

/-- Such a command completes; with the duty of R97 unbroken POS is its body's. -/
theorem pos_of_exec {i : Instr} {s t : State} {f : State → State} (hf : bodyOf i = some f) (hr : rangeOk s i = true)
    (hb : s.breached = false) (hadm : s.admitsBytes 0 s.len.toNat = true) (h : exec i s = .next t) :
    t.pos = (f s).pos := by
  rw [exec_result hf (reads_admitted hr hadm) hb] at h
  cases h
  rfl

theorem hashStep_pos (k : Variant) (s : State) : (hashStep k s).pos = s.len := by
  obtain ⟨-, -, pos⟩ := (variantHead_foldsHead k s).tail
  rw [hashStep, variantBody_eq_tailStep, pos]

/-- Settles O28: POS after each body, inside LEN by the RANGE check. -/
theorem posAdvancesWithinLen : Obligations.PosAdvancesWithinLen := by
  intro s t i hr hb hadm h
  obtain ⟨f, hf, -⟩ := exec_next h
  have hpos := pos_of_exec hf hr hb hadm h
  rw [rangeOk_iff] at hr
  have consumed {n : Nat} (hn : byteCount s.w i = some n) (moved : (f s).pos = s.pos + BitVec.ofNat 32 n) :
      t.pos.toNat = s.pos.toNat + n ∧ t.pos.toNat ≤ s.len.toNat := by
    have fits := hr n hn
    rw [hpos, moved, advance_pos_toNat fits]
    exact ⟨rfl, fits⟩
  refine ⟨?sfold, ?sfold8, ?blocks, ?toLen, ?init, ?still⟩
  case sfold => rintro rfl; cases hf; exact consumed rfl (sfoldStep_pos s)
  case sfold8 => rintro rfl; cases hf; exact consumed rfl (sfold8Step_pos s)
  case blocks =>
    rintro (rfl | ⟨a, o, st, rfl⟩)
    · cases hf; exact consumed rfl (vrpiStep_pos s)
    · obtain ⟨k, -, rfl⟩ := Option.map_eq_some_iff.1 hf
      exact consumed rfl (vmacStep_pos _ _ k s)
  case toLen =>
    rintro (rfl | ⟨v, rfl⟩)
    · cases hf; exact hpos.trans (tailStep_folds (hr 0 rfl)).2
    · obtain ⟨k, -, rfl⟩ := Option.map_eq_some_iff.1 hf
      exact hpos.trans (hashStep_pos k s)
  case init => rintro rfl; cases hf; exact hpos
  case still => rintro (rfl | ⟨a, rfl⟩ | ⟨a, rfl⟩ | ⟨m, rfl⟩) <;> cases hf <;> exact hpos

/-- The next state of an accepted command over an admitted buffer whose bytes have changed since its acceptance: the
completion update with H, POS and ACC drawn (R97, R271). -/
theorem exec_of_broken {i : Instr} {s : State} (hi : i.WellFormed) (hb : s.breached = true)
    (hadm : s.admitsBytes 0 s.len.toNat = true) (hr : rangeOk s i = true) :
    exec i s = .next (redraw { s.finish (retire i s) with breached := false }) := by
  obtain ⟨f, hf⟩ := bodyOf_wellFormed hi
  have body := body_only hf s
  rw [exec_completes hf (reads_admitted hr hadm), complete_of_broken _ i (body.breached.trans hb), body]
  rfl

/-- Settles O44: the draws replace whatever the body did. -/
theorem brokenDutyDrawsAtCompletion : Obligations.BrokenDutyDrawsAtCompletion := by
  intro s i hi hb hadm hr
  exact ⟨_, exec_of_broken hi hb hadm hr, rfl, fun a j hj => redraw_lane _ a hj⟩

end Sys2Proof.Machine
end

section
/-! The setup commands, SFOLD, VMAC and HRED register by register (spec/40_setup.md R140-R143; spec/41_scalar.md R160;
spec/42_vector.md R182, R184), and HASH after reset (spec/70_reset_and_hazards.md R262). -/

namespace Sys2Proof.Machine

/-! ### Setup -/

/-- Settles O9: NOP's body is the identity. -/
theorem nopOnlyCompletes : Obligations.NopOnlyCompletes :=
  fun _ hb => ⟨_, exec_result rfl rfl hb, rfl⟩

/-- Settles O10: INIT's body is the seeding. -/
theorem initSeedsEverything : Obligations.InitSeedsEverything :=
  fun s hb => ⟨_, exec_result rfl rfl hb, rfl, fun a _ hj => seedAll_lane s a hj⟩

/-- A command that reads no input and sets ACC[a] to `v` completes with that accumulator changed and no other. -/
theorem exec_setAcc {i : Instr} {s : State} {f : State → State} {a : Fin 4} {v : LaneVec} (hf : bodyOf i = some f)
    (noInput : s.admitsBytes (readsOf s i).1 (readsOf s i).2 = true) (hb : s.breached = false)
    (body : f s = s.setAcc a v) :
    ∃ t, exec i s = .next t ∧ t = { s.finish t with acc := t.acc } ∧ t.accOf a = v ∧
      ∀ b, b ≠ a → t.accOf b = s.accOf b := by
  have set (b : Fin 4) : (f s).accOf b = if a = b then v else s.accOf b := by rw [body, State.accOf_setAcc]
  refine ⟨_, exec_result hf noInput hb, ?_, (set a).trans (if_pos rfl), fun b hne => (set b).trans (if_neg hne.symm)⟩
  rw [body]
  rfl

/-- Settles O11: both commands set one accumulator. -/
theorem vseedAndVzeroWriteOneAccumulator : Obligations.VseedAndVzeroWriteOneAccumulator := by
  intro s a hb
  obtain ⟨t, ht, frame, seeded, others⟩ := exec_setAcc (i := .vseed a) rfl rfl hb rfl
  obtain ⟨u, hu, frame', cleared, others'⟩ := exec_setAcc (i := .vzero a) rfl rfl hb rfl
  refine ⟨⟨t, ht, frame, fun j hj => ?_, others⟩, ⟨u, hu, frame', fun j hj => ?_, others'⟩⟩
  · exact (congrArg (lane · j) seeded).trans (lane_lanesOf _ hj)
  · exact (congrArg (lane · j) cleared).trans (lane_lanesOf _ hj)

/-! ### SFOLD, VMAC and HRED -/

/-- Settles O12: the fold over the one byte at BASE + POS. -/
theorem sfoldFoldsOneByte : Obligations.SfoldFoldsOneByte := by
  intro s hb hadm
  have admitted : s.admitsBytes s.pos.toNat 1 = true :=
    (admitsBytes_iff ..).2 fun k hk => by rw [Nat.lt_one_iff.1 hk, Nat.add_zero, ea_pos, hadm]
  have folded : foldFrom s.h (s.inputWords s.pos.toNat 1) = 31 * s.h + (s.byteAt (s.base + s.pos)).signExtend 32 := by
    rw [← sfoldStep_fold, sfoldStep_h, State.inputByte, ea_pos, sext32]
  obtain ⟨t, ht, c⟩ := exec_sfold_completesFold hb admitted
  exact ⟨t, ht, folded ▸ c.eq⟩

/-- A field S other than the reserved 3 selects 2^S vector-widths (R45). -/
theorem stepOfField_blocks (st : BitVec 2) (h : st ≠ 3) :
    ∃ k, stepOfField st = some k ∧ k.blocks = 2 ^ st.toNat := by
  have legal : ∀ st : BitVec 2, st ≠ 3 → (stepOfField st).map StepSel.blocks = some (2 ^ st.toNat) := by decide
  exact Option.map_eq_some_iff.1 (legal st h)

theorem bodyOf_vmac (a o : BitVec 2) {st : BitVec 2} {k : StepSel} (hk : stepOfField st = some k) :
    bodyOf (.vmac a o st) = some (vmacStep (indexOfField a) (indexOfField o) k) := by
  rw [bodyOf, hk, Option.map_some]

/-- Settles O16: VMAC's body lane by lane, with the step constant as a power of 31. -/
theorem vmacAdvancesOneAccumulator : Obligations.VmacAdvancesOneAccumulator := by
  intro s a o st hst hb hadm
  obtain ⟨k, hk, blocks⟩ := stepOfField_blocks st hst
  refine ⟨_, exec_result (bodyOf_vmac a o hk) hadm hb, ?frame, fun j hj => ?lane, fun b hne => ?others⟩
  case frame =>
    rw [vmacStep_h, vmacStep_pos]
    rfl
  case lane =>
    have lanes := vmacStep_lane (.refl s) (pos_eq_ofNat s) (indexOfField a) (indexOfField o) k hj
    rw [blocks, Nat.add_zero, pow31_eq, pow31_eq] at lanes
    exact lanes
  case others => exact vmacStep_accOf_other hne.symm (indexOfField o) k s

/-- The selected sum as the list of R184's loop. -/
theorem maskedSum_eq (m : BitVec 4) (s : State) :
    maskedSum m s = ((List.finRange 4).map fun a : Fin 4 =>
      if m.getLsbD a.val then sumTo (fun j => lane (s.accOf a) j) s.w else 0).sum := by
  simp only [maskedSum, maskHas, hsum, List.finRange_succ, List.finRange_zero, List.map_cons, List.map_nil,
    List.sum_cons, List.sum_nil, zero_add, add_zero, add_assoc]
  rfl

theorem maskedSum_zero (s : State) : maskedSum 0 s = 0 := by
  simp [maskedSum, maskHas]

/-- HRED writes the selected sum to H and nothing else. -/
theorem exec_hred (m : BitVec 4) {s : State} (hb : s.breached = false) :
    exec (.hred m) s = .next { s.finish (retire (.hred m) s) with h := maskedSum m s } := by
  rw [exec_result (f := hredStep m) rfl rfl hb, hredStep_h, hredStep_acc, hredStep_pos]
  rfl

/-- Settles O18: the selected sum, which is empty for M = 0. -/
theorem hredSumsTheSelectedAccumulators : Obligations.HredSumsTheSelectedAccumulators := by
  intro s m hb
  refine ⟨⟨_, exec_hred m hb, ?_⟩, ⟨_, exec_hred 0 hb, ?_⟩⟩
  · rw [← maskedSum_eq]
    rfl
  · rw [maskedSum_zero]
    rfl

/-! ### HASH and TAIL after reset (R262) -/

/-- The six legal values of V name a variant (R111, R118). -/
theorem variantOfField_of_le {v : BitVec 3} (hv : v.toNat ≤ 5) : ∃ k, variantOfField v = some k := by
  obtain ⟨f, hf⟩ := bodyOf_wellFormed (i := .hash v) (decide_eq_true hv)
  exact variantOfField_of_bodyOf hf

/-- Settles O52: LEN is 0 after the reset signal, so the buffer is empty and the fold is its start. -/
theorem hashAfterResetIsOne : Obligations.HashAfterResetIsOne := by
  intro s v hv
  obtain ⟨k, hk⟩ := variantOfField_of_le hv
  obtain ⟨t, ht, c⟩ := exec_tail_completesFold (resetSignal_breached s) (Nat.le_refl 0) rfl
  exact ⟨⟨_, exec_hash hk (resetSignal_breached s) rfl, rfl⟩, ⟨t, ht, c.h⟩⟩

end Sys2Proof.Machine
end

section
/-! The machine's step (spec/10_state.md R30, R42; spec/20_memory.md section 1; spec/60_exceptions.md R233; and
spec/70_reset_and_hazards.md R275): which event it performs, that the engine's turn always answers, and what no step
touches. -/

namespace Sys2Proof.Machine

/-! ### The next event (R30, R250) -/

section
variable {s : State} {rest : List Event}

theorem step_host {a : HostAccess} (hs : s.schedule = .host a :: rest) :
    step s = hostAccess a { s with schedule := rest } := by
  rw [step, nextTurn, hs, runTurn]

theorem step_memory {a : Word} {b : Byte} (hs : s.schedule = .memory a b :: rest) :
    step s = .next (storeByte a b { s with schedule := rest }) := by
  rw [step, nextTurn, hs, runTurn]

theorem step_engine (hs : s.schedule = .engine :: rest) :
    step s = runTurn (engineTurn { s with schedule := rest }) := by
  rw [step, nextTurn, hs]

theorem step_noEvent (hs : s.schedule = []) : step s = runTurn (engineTurn s) := by
  rw [step, nextTurn, hs]

end

theorem engineTurn_of_idle {s : State} (hp : s.pending = none) : runTurn (engineTurn s) = .next s := by
  rw [engineTurn, hp, runTurn]

theorem engineTurn_of_pending {s : State} {w : Word} {i : Instr} (hp : s.pending = some w) (hd : decode w = .ok i) :
    runTurn (engineTurn s) = exec i s := by
  simp only [engineTurn, hp, runTurn, hd]

/-- Settles O7: the engine's turn with and without an event for it. -/
theorem stepRunsTheDecodedCommand : Obligations.StepRunsTheDecodedCommand := by
  intro s w i hp hd
  exact ⟨fun hs => (step_noEvent hs).trans (engineTurn_of_pending hp hd),
    fun rest hs => (step_engine hs).trans (engineTurn_of_pending hp hd)⟩

/-- Settles O8: the other events, and the engine's turn with nothing pending. -/
theorem stepTakesTheNextEvent : Obligations.StepTakesTheNextEvent := by
  exact ⟨fun s a rest => step_host, fun s a b rest => step_memory,
    fun s rest hs hp => (step_engine hs).trans (engineTurn_of_idle hp),
    fun s hs hp => (step_noEvent hs).trans (engineTurn_of_idle hp)⟩

/-! ### The engine's turn answers (R275) -/

/-- A well-formed command answers a next state in every state. -/
theorem exec_answers {i : Instr} (hi : i.WellFormed) (s : State) : ∃ t, exec i s = .next t := by
  obtain ⟨f, hf⟩ := bodyOf_wellFormed hi
  cases hr : s.admitsBytes (readsOf s i).1 (readsOf s i).2 with
  | true => exact ⟨_, exec_completes hf hr⟩
  | false => exact ⟨_, exec_aborts hf hr⟩

theorem exec_busy {i : Instr} {s t : State} (h : exec i s = .next t) : t.status.busy = false := by
  obtain hs | hs := exec_status h
  · rw [hs]
  · rw [hs]

/-- Under the invariant the pending word decodes, so the engine's turn ends its command. -/
theorem engineTurn_ends {s : State} {w : Word} (h : s.Inv) (hp : s.pending = some w) :
    ∃ t, runTurn (engineTurn s) = .next t ∧ t.pending = none ∧ t.status.busy = false := by
  obtain ⟨i, hd, -⟩ := h.accepted w hp
  obtain ⟨t, ht⟩ := exec_answers (encodeOfDecodeIsTheWord w i hd).1 s
  exact ⟨t, (engineTurn_of_pending hp hd).trans ht, exec_pending ht, exec_busy ht⟩

theorem engineTurn_answers {s : State} (h : s.Inv) : ∃ t, runTurn (engineTurn s) = .next t := by
  cases hp : s.pending with
  | none => exact ⟨s, engineTurn_of_idle hp⟩
  | some w => exact (engineTurn_ends h hp).imp fun _ => And.left

/-- Settles O57: the engine has its turn with or without an event for it. -/
theorem engineTurnEndsThePendingCommand : Obligations.EngineTurnEndsThePendingCommand := by
  intro s w h hp turn
  obtain hs | ⟨rest, hs⟩ := turn
  · rw [step_noEvent hs]
    exact engineTurn_ends h hp
  · rw [step_engine hs]
    exact engineTurn_ends (h.withSchedule rest) hp

/-- A host access that the window does not answer is refused, and it is one of the three that R87 names. -/
theorem hostAccess_outcome (a : HostAccess) (s : State) :
    (∃ t, hostAccess a s = .next t) ∨
    ((∃ r, hostAccess a s = .refused r) ∧
      (a.addr < s.platform.phaBase ∨ s.platform.phaBase + 0x1000 ≤ a.addr ∨ a.size ≠ .word ∨
        (a.addr - s.platform.phaBase) % 4 ≠ 0)) := by
  by_cases outside : a.addr < s.platform.phaBase ∨ s.platform.phaBase + 0x1000 ≤ a.addr
  · exact .inr ⟨⟨_, if_pos outside⟩, outside.imp_right .inl⟩
  · obtain ⟨hlo, hhi⟩ : s.platform.phaBase ≤ a.addr ∧ a.addr < s.platform.phaBase + 0x1000 := by omega
    by_cases hword : a.size = .word
    · by_cases aligned : (a.addr - s.platform.phaBase) % 4 = 0
      · exact .inl ((windowAnswersAlignedWordsOnly s a hlo hhi).1 hword aligned)
      · exact .inr ⟨⟨_, hostAccess_of_misaligned hlo hhi hword aligned⟩, .inr (.inr (.inr aligned))⟩
    · exact .inr ⟨⟨_, hostAccess_of_subWord hlo hhi hword⟩, .inr (.inr (.inl hword))⟩

/-- Under the invariant a step answers a next state, or it is a host access. -/
theorem step_answers_or_host {s : State} (h : s.Inv) :
    (∃ t, step s = .next t) ∨
    ∃ a rest, s.schedule = .host a :: rest ∧ step s = hostAccess a { s with schedule := rest } := by
  rcases hs : s.schedule with _ | ⟨e, rest⟩
  · rw [step_noEvent hs]
    exact .inl (engineTurn_answers h)
  · cases e with
    | engine =>
      rw [step_engine hs]
      exact .inl (engineTurn_answers (h.withSchedule rest))
    | host a => exact .inr ⟨a, rest, rfl, step_host hs⟩
    | memory a b => exact .inl ⟨_, step_memory hs⟩
    | reset => exact .inl ⟨_, step_reset hs⟩

/-- Settles O56: only a host access can be refused, and nothing faults. -/
theorem noStepFaultsUnderTheInvariant : Obligations.NoStepFaultsUnderTheInvariant := by
  intro s h
  obtain ⟨t, ht⟩ | ⟨a, rest, hs, ha⟩ := step_answers_or_host h
  · rw [ht]
    exact ⟨nofun, nofun⟩
  · rw [ha]
    obtain ⟨t, ht⟩ | ⟨⟨r, hr⟩, unanswered⟩ := hostAccess_outcome a { s with schedule := rest }
    · rw [ht]
      exact ⟨nofun, nofun⟩
    · rw [hr]
      exact ⟨nofun, fun _ _ => ⟨a, rest, hs, unanswered⟩⟩

/-! ### The build and the input memory -/

/-- A write of the host leaves the build, the input memory and the model's host side alone (R90, R96). -/
theorem regWrite_only (r : Reg) (v : Word) (s : State) :
    regWrite r v s = { regWrite r v s with
      platform := s.platform, input := s.input, schedule := s.schedule, readData := s.readData
      breached := s.breached, draws := s.draws } := by
  cases r with
  | param | ctrl | status | pow | reserved => rfl
  | cmd =>
    rw [regWrite]
    obtain ⟨c, -, hw⟩ | ⟨-, i, -, -, hw⟩ := submit_cases v s
    · rw [hw]; rfl
    · rw [hw]; rfl
  | base | len | pos | h | acc =>
    rw [regWrite, writeIdle]
    split
    · rfl
    · rfl

theorem hostAccess_keeps {a : HostAccess} {s t : State} (h : hostAccess a s = .next t) :
    t.platform = s.platform ∧ t.input = s.input := by
  obtain ⟨-, -, -, -, ⟨-, rfl⟩ | ⟨v, -, rfl⟩⟩ := hostAccess_next h
  · rw [busRead_only]
    exact ⟨rfl, rfl⟩
  · rw [regWrite_only]
    exact ⟨rfl, rfl⟩

theorem exec_input {i : Instr} {s t : State} (h : exec i s = .next t) : t.input = s.input := by
  obtain ⟨f, hf, ⟨-, rfl⟩ | ⟨-, rfl⟩⟩ := exec_next h
  · rw [complete_input, (body_only hf s).input]
  · exact busAbort_input ..

/-- Settles O55: no kind of step writes the build. -/
theorem stepKeepsTheBuild : Obligations.StepKeepsTheBuild := by
  intro s t ht
  obtain ⟨w, i, -, -, hx⟩ | ⟨a, rest, -, ha⟩ | ⟨a, b, rest, -, rfl⟩ | ⟨rest, -, rfl⟩ | ⟨-, rfl⟩ := step_next ht
  · obtain ⟨-, -, -, platform, -⟩ := commandsKeepConfigurationAndMemory i _ t hx
    exact platform
  · exact (hostAccess_keeps ha).1
  · exact storeByte_platform ..
  · exact resetSignal_platform ..
  · rfl

/-- The byte at the address that changed is the new one. -/
theorem storeByte_byteAt_same (a : Word) (b : Byte) (s : State) : (storeByte a b s).byteAt a = b := by
  simp only [State.byteAt, storeByte_input, readCell_writeCell_same]

/-- Every other byte is as before. -/
theorem storeByte_byteAt_other {a a' : Word} (b : Byte) (s : State) (h : a' ≠ a) :
    (storeByte a b s).byteAt a' = s.byteAt a' := by
  have other : a'.toNat ≠ a.toNat := fun e => h (BitVec.eq_of_toNat_eq e)
  simp only [State.byteAt, storeByte_input, readCell_writeCell_other _ b other]

/-- Settles O42: a memory event writes its own address, and no other kind of step writes the input memory. -/
theorem onlyMemoryEventsChangeTheInput : Obligations.OnlyMemoryEventsChangeTheInput := by
  intro s t ht
  refine ⟨fun noMemory => ?kept, fun a b rest hs => ?written⟩
  case kept =>
    obtain ⟨w, i, -, -, hx⟩ | ⟨a, rest, -, ha⟩ | ⟨a, b, rest, hs, -⟩ | ⟨rest, -, rfl⟩ | ⟨-, rfl⟩ := step_next ht
    · exact exec_input (s := { s with schedule := s.schedule.tail }) hx
    · exact (hostAccess_keeps ha).2
    · exact absurd hs (noMemory a b rest)
    · rfl
    · rfl
  case written =>
    rw [step_memory hs] at ht
    cases ht
    exact ⟨storeByte_byteAt_same a b _, fun a' hne => storeByte_byteAt_other b _ hne⟩

/-! ### The first error stays (R233) -/

/-- `t` records the error that `s` records. -/
def KeepsError (s t : State) : Prop := t.status.err = true ∧ t.status.code = s.status.code

theorem KeepsError.of_status {s t : State} (he : s.status.err = true) (h : t.status = s.status) : KeepsError s t := by
  rw [KeepsError, h]
  exact ⟨he, rfl⟩

theorem raise_keepsError {s : State} (he : s.status.err = true) (c : ErrCode) : KeepsError s (raise c s) :=
  ⟨raiseStatus_err c s.status, raiseStatus_code_of_err c s.status he⟩

theorem exec_keepsError {i : Instr} {s t : State} (he : s.status.err = true) (h : exec i s = .next t) :
    KeepsError s t := by
  obtain hs | hs := exec_status h
  · rw [KeepsError, hs]
    exact ⟨he, rfl⟩
  · rw [KeepsError, hs]
    exact ⟨rfl, if_pos he⟩

theorem writeIdle_keepsError {s : State} (he : s.status.err = true) (set : State → State)
    (keeps : (set s).status = s.status) : KeepsError s (writeIdle set s) := by
  obtain ⟨-, hw⟩ | ⟨-, hw⟩ := writeIdle_cases set s
  · rw [hw]
    exact raise_keepsError he .busy
  · rw [hw]
    exact .of_status he keeps

/-- Only a STATUS write with bit 2 set clears the error. -/
theorem regWrite_keepsError {s : State} (he : s.status.err = true) {r : Reg} {v : Word}
    (noClear : r = .status → v.getLsbD 2 = false) : KeepsError s (regWrite r v s) := by
  cases r with
  | param | ctrl | pow | reserved => exact .of_status he rfl
  | status =>
    rw [regWrite, clearStatus_eq, noClear rfl]
    exact ⟨he, rfl⟩
  | cmd =>
    rw [regWrite]
    obtain ⟨c, -, hw⟩ | ⟨-, i, -, -, hw⟩ := submit_cases v s
    · rw [hw]
      exact raise_keepsError he c
    · rw [hw]
      exact ⟨he, rfl⟩
  | base | len | pos | h | acc =>
    rw [regWrite]
    exact writeIdle_keepsError he _ rfl

theorem hostAccess_keepsError {a : HostAccess} {s t : State} (he : s.status.err = true) (h : hostAccess a s = .next t)
    (noClear : ∀ v : Word, v.getLsbD 2 = true → a ≠ s.accessAt 0x008 (.write v)) : KeepsError s t := by
  obtain ⟨hword, hbase, -, -, ⟨-, rfl⟩ | ⟨v, hv, rfl⟩⟩ := hostAccess_next h
  · refine .of_status he ?_
    rw [busRead_only]
  · refine regWrite_keepsError he fun hr => ?_
    by_contra clears
    refine noClear v (by simpa using clears) ?_
    rw [eq_accessAt hword hbase, ofOffset_status.1 hr, hv]

/-- Settles O49: each kind of step but the two that clear keeps the recorded error. -/
theorem firstErrorCodeStays : Obligations.FirstErrorCodeStays := by
  intro s t ht he noReset noClear
  obtain ⟨w, i, -, -, hx⟩ | ⟨a, rest, hs, ha⟩ | ⟨a, b, rest, -, rfl⟩ | ⟨rest, hs, -⟩ | ⟨-, rfl⟩ := step_next ht
  · exact exec_keepsError (s := { s with schedule := s.schedule.tail }) he hx
  · exact hostAccess_keepsError (s := { s with schedule := rest }) he ha
      fun v hv same => noClear v rest hv (hs.trans (by rw [same]; rfl))
  · exact KeepsError.of_status he (storeByte_status ..)
  · exact absurd hs (noReset rest)
  · exact KeepsError.of_status he rfl

end Sys2Proof.Machine
end

section
/-! Reads of the register window (spec/10_state.md section 7, R39; spec/20_memory.md R89, R93). -/

namespace Sys2Proof.Machine

/-! ### STATUS as a word (R39) -/

/-- Settles O39: for each of the five error codes, the layout with every value of BUSY, DONE and ERR. -/
theorem statusWordHasItsLayout : Obligations.StatusWordHasItsLayout := by
  rintro ⟨busy, done, err, code⟩
  cases code with
  | none | illegal | range | busy | busErr => revert busy done err; decide

/-! ### What RegRead returns by offset (R89) -/

theorem regRead_lane (s : State) (a : Fin 4) {j : Nat} (hj : j < 64) :
    regRead (Reg.ofOffset s.w (0x400 + 0x100 * a.val + 4 * j)) s = if j < s.w then lane (s.accOf a) j else 0 := by
  rw [ofOffset_acc a hj]
  split
  · rfl
  · rfl

theorem regRead_pow (s : State) (k : Nat) :
    regRead (Reg.ofOffset s.w (0x800 + 4 * k)) s = if k ≤ 4 * s.w then BitVec.ofNat 32 (31 ^ k) else 0 := by
  rw [ofOffset_pow]
  split
  · exact pow31_eq k
  · rfl

theorem regRead_low (s : State) {off : Nat} (hlo : 0x020 ≤ off) (hhi : off < 0x400) :
    regRead (Reg.ofOffset s.w off) s = 0 := by
  rw [ofOffset_low hlo hhi, regRead]

/-- While idle a read returns RegRead of the register and changes no register. -/
theorem busRead_of_idle {s : State} (hb : s.status.busy = false) (r : Reg) :
    busRead r s = { s with
      readData := some (regRead r s), reading := (busRead r s).reading, uses := (busRead r s).uses } := by
  rw [busRead, hb, Bool.false_and, if_neg Bool.false_ne_true]

/-- Settles O34: RegRead of the register at each offset. -/
theorem idleReadsReturnTheRegisters : Obligations.IdleReadsReturnTheRegisters := by
  intro s off hb hoff aligned
  refine ⟨_, regRead (Reg.ofOffset s.w off) s, hostAccess_read hoff aligned, busRead_of_idle hb _, ?_⟩
  refine ⟨?_, ?_, ?_, ?_, ?_, ?_, ?_, ?_, regRead_low s, ?lanes, ?rom⟩
  case lanes =>
    rintro a j hj rfl
    exact regRead_lane s a hj
  case rom =>
    rintro k rfl
    exact regRead_pow s k
  all_goals rintro rfl; rfl

/-! ### While busy (R93) -/

theorem busRead_of_busy {s : State} (hb : s.status.busy = true) (r : Reg) :
    busRead r s = if r.isDatapath then { s with readData := some (Config.draw s.draws), draws := s.draws + 1 }
      else { s with readData := some (regRead r s) } := by
  rw [busRead, hb, Bool.true_and]
  simp

theorem hostAccess_read_of_busy {s : State} (hb : s.status.busy = true) {off : Nat} (hoff : off < 0x1000)
    (aligned : off % 4 = 0) (defined : (Reg.ofOffset s.w off).isDatapath = false) :
    hostAccess (s.accessAt off .read) s = .next { s with readData := some (regRead (Reg.ofOffset s.w off) s) } := by
  rw [hostAccess_read hoff aligned, busRead_of_busy hb, defined, if_neg Bool.false_ne_true]

theorem hostAccess_read_datapath_of_busy {s : State} (hb : s.status.busy = true) {off : Nat} (hoff : off < 0x1000)
    (aligned : off % 4 = 0) (datapath : (Reg.ofOffset s.w off).isDatapath = true) :
    hostAccess (s.accessAt off .read) s =
      .next { s with readData := some (Config.draw s.draws), draws := s.draws + 1 } := by
  rw [hostAccess_read hoff aligned, busRead_of_busy hb, if_pos datapath]

/-- Settles O35: each offset's register is one of the datapath or not. -/
theorem busyReadsOfTheDatapathAreUnspecified : Obligations.BusyReadsOfTheDatapathAreUnspecified := by
  intro s hb
  have hw := s.w_le
  refine ⟨fun off hoff => ?datapath, fun off v hoff => ?named, fun k hk => ?rom, fun off hlo hhi aligned => ?low,
    fun a j hj hj64 => ?aboveLanes⟩
  case datapath =>
    obtain rfl | rfl | ⟨a, j, hj, rfl⟩ := hoff
    · exact hostAccess_read_datapath_of_busy hb (by decide) (by decide) rfl
    · exact hostAccess_read_datapath_of_busy hb (by decide) (by decide) rfl
    · exact hostAccess_read_datapath_of_busy hb (by omega) (by omega) (by rw [ofOffset_lane a hj]; rfl)
  case named =>
    simp only [List.mem_cons, Prod.mk.injEq, List.not_mem_nil, or_false] at hoff
    obtain ⟨rfl, rfl⟩ | ⟨rfl, rfl⟩ | ⟨rfl, rfl⟩ | ⟨rfl, rfl⟩ | ⟨rfl, rfl⟩ | ⟨rfl, rfl⟩ := hoff
    all_goals exact hostAccess_read_of_busy hb (by decide) (by decide) rfl
  case rom =>
    have defined : (Reg.ofOffset s.w (0x800 + 4 * k)).isDatapath = false := by
      rw [ofOffset_pow]
      split
      · rfl
      · rfl
    rw [hostAccess_read_of_busy hb (by omega) (by omega) defined, regRead_pow]
  case low =>
    have defined : (Reg.ofOffset s.w off).isDatapath = false := by rw [ofOffset_low hlo hhi]; rfl
    rw [hostAccess_read_of_busy hb (by omega) aligned defined, regRead_low s hlo hhi]
  case aboveLanes =>
    have defined : (Reg.ofOffset s.w (0x400 + 0x100 * a.val + 4 * j)).isDatapath = false := by
      rw [ofOffset_acc a hj64, if_neg (Nat.not_lt.2 hj)]
      rfl
    rw [hostAccess_read_of_busy hb (by omega) (by omega) defined, regRead_lane s a hj64, if_neg (Nat.not_lt.2 hj)]

/-! ### The end of the duty (R97) -/

/-- A byte that no command in use has read changes the input memory alone. -/
theorem storeByte_of_unused {s : State} {a : Word} (b : Byte) (hr : s.reading.any (fun r => r.has a) = false)
    (hu : s.spoils a Marks.any = false) : storeByte a b s = { s with input := writeCell s.input a.toNat b } :=
  (storeByte_of_not_reading b hr).trans (spoil_of_not_hit hu)

/-- Settles O45: the observation forgets every input byte in use, so no later change reaches a register. -/
theorem observingIdleEndsTheDuty : Obligations.ObservingIdleEndsTheDuty := by
  intro s a b hb
  have noReading : (busRead .status s).reading = [] := by simp [busRead, Reg.isDatapath, hb]
  have noUses : (busRead .status s).uses = [] := by simp [busRead, Reg.isDatapath, hb]
  have observed : hostAccess (s.accessAt 0x008 .read) s = .next (busRead .status s) := by
    rw [hostAccess_read (by decide) (by decide), ofOffset_status.2 rfl]
  exact ⟨_, observed, storeByte_of_unused b (by rw [noReading]; rfl) (by rw [State.spoils, noUses]; rfl)⟩

end Sys2Proof.Machine
end

section
/-! The duty to keep the input unchanged (spec/20_memory.md R97, R271; spec/43_hash.md R200, R210; 92_eei_decisions.md
D19): a byte that changes while a command that reads it is pending, after such a command until the host observes
BUSY = 0, and a byte outside the buffer of HASH. -/

namespace Sys2Proof.Machine

/-! ### Which addresses a run of input bytes has (R82) -/

/-- The run of `n` bytes from index `lo` has the address of every index in it. -/
theorem has_ea {s : State} {lo n k : Nat} (hlo : lo ≤ k) (hhi : k < lo + n) (hn : n < 2 ^ 32) :
    InputRange.has ⟨s.ea lo, n⟩ (s.ea k) = true := by
  have offset : s.ea k - s.ea lo = BitVec.ofNat 32 (k - lo) := by
    conv_lhs => rw [← Nat.add_sub_of_le hlo]
    rw [State.ea, State.ea, BitVec.ofNat_add, ← add_assoc, add_sub_cancel_left]
  rw [InputRange.has, offset, BitVec.toNat_ofNat, Nat.mod_eq_of_lt (by omega)]
  have inside : k - lo < n := by omega
  exact decide_eq_true inside

/-- An address that no index of the buffer has is not in the buffer's run. -/
theorem not_has_of_outside {s : State} {n : Nat} {a : Word} (outside : ∀ k, k < n → s.ea k ≠ a) :
    InputRange.has ⟨s.ea 0, n⟩ a = false := by
  have start : s.ea 0 = s.base := by simp [State.ea]
  refine decide_eq_false fun inside => outside _ inside ?_
  rw [ea_pos, start, add_sub_cancel]

/-- The bytes the duty protects for a command that reads input: from index 0 for HASH, from POS for the others. -/
theorem protects_has {s : State} {i : Instr} {k : Nat} (hk : k < s.len.toNat)
    (reads : (∃ v, i = .hash v) ∨
      ((i = .sfold ∨ i = .sfold8 ∨ i = .vrpi ∨ i = .tail ∨ ∃ a o st, i = .vmac a o st) ∧ s.pos.toNat ≤ k)) :
    (protects s i).any (fun r => r.has (s.ea k)) = true := by
  have small := s.len.isLt
  obtain ⟨v, rfl⟩ | ⟨fromPos, hpos⟩ := reads
  · exact (Bool.or_false _).trans (has_ea (Nat.zero_le k) (by omega) small)
  · have inRest := (Bool.or_false _).trans (has_ea (s := s) hpos (n := s.len.toNat - s.pos.toNat) (by omega) (by omega))
    obtain rfl | rfl | rfl | rfl | ⟨a, o, st, rfl⟩ := fromPos
    all_goals exact inRest

/-! ### Acceptance -/

theorem hostAccess_write_cmd_accepts {s : State} {w : Word} {i : Instr} (hb : s.status.busy = false)
    (hd : decode w = .ok i) (hr : rangeOk s i = true) :
    hostAccess (s.accessAt 0x00C (.write w)) s = .next (accept w i s) := by
  rw [hostAccess_write_cmd, submit_of_decodes hb hd, if_pos hr]

theorem accept_admitsBytes (w : Word) (i : Instr) (s : State) (lo n : Nat) :
    (accept w i s).admitsBytes lo n = s.admitsBytes lo n :=
  admitsBytes_congr (accept_base ..) (accept_platform ..) lo n

/-- HASH has no RANGE check, so an idle PHA accepts it (R237). -/
theorem hostAccess_write_hash {s : State} {v : BitVec 3} (hb : s.status.busy = false) (hv : v.toNat ≤ 5) :
    hostAccess (s.accessAt 0x00C (.write (encode (.hash v)))) s = .next (accept (encode (.hash v)) (.hash v) s) :=
  hostAccess_write_cmd_accepts hb (decodeOfEncodeIsTheCommand _ (decide_eq_true hv)) rfl

/-! ### A byte changes while a command that reads it is pending (R97, R271) -/

theorem spoil_draws_ge (s : State) (a : Word) : s.draws ≤ (spoil a s).draws := by
  unfold spoil
  split
  · simp only
    omega
  · exact le_rfl

theorem storeByte_draws_ge (s : State) (a : Word) (b : Byte) : s.draws ≤ (storeByte a b s).draws := by
  unfold storeByte
  split
  · exact spoil_draws_ge { s with input := writeCell s.input a.toNat b } a
  · exact spoil_draws_ge { s with input := writeCell s.input a.toNat b } a

theorem storeByte_ea (s : State) (a : Word) (b : Byte) (k : Nat) : (storeByte a b s).ea k = s.ea k := by
  rw [State.ea, storeByte_base, State.ea]

theorem storeByte_admitsBytes (s : State) (a : Word) (b : Byte) (lo n : Nat) :
    (storeByte a b s).admitsBytes lo n = s.admitsBytes lo n :=
  admitsBytes_congr (storeByte_base ..) (storeByte_platform ..) lo n

theorem storeByte_breaks_duty {s : State} {a : Word} (b : Byte) (h : s.reading.any (fun r => r.has a) = true) :
    (storeByte a b s).breached = true := by
  rw [storeByte_of_reading b h]

/-- HASH performed after one of the bytes it reads has changed: completion with H, POS and ACC drawn (R271). -/
theorem exec_hash_of_read_byte {s : State} {v : BitVec 3} {a : Word} (b : Byte) (hv : v.toNat ≤ 5)
    (hadm : s.admitsBytes 0 s.len.toNat = true) (read : s.reading.any (fun r => r.has a) = true) :
    exec (.hash v) (storeByte a b s) =
      .next (redraw { (storeByte a b s).finish (retire (.hash v) (storeByte a b s)) with breached := false }) :=
  exec_of_broken (decide_eq_true hv) (storeByte_breaks_duty b read)
    (by rw [storeByte_admitsBytes, storeByte_len, hadm]) rfl

/-- Settles O43: HASH protects every byte of its buffer from its acceptance on. -/
theorem inputChangedInUseGivesDraws : Obligations.InputChangedInUseGivesDraws := by
  intro s v k b hb hv hk hadm
  have read := protects_has (i := .hash v) hk (.inl ⟨v, rfl⟩)
  have admitted := (accept_admitsBytes (encode (.hash v)) (.hash v) s 0 _).trans hadm
  refine ⟨_, _, _, hostAccess_write_hash hb hv, rfl, exec_hash_of_read_byte b hv admitted read, ?status, rfl, _,
    storeByte_draws_ge (accept _ _ s) _ b, rfl, rfl, fun a j hj => ?lane⟩
  case status => simp only [redraw_status, State.finish, storeByte_status, accept_status]
  case lane =>
    have lanes := storeByte_w (accept (encode (.hash v)) (.hash v) s) (s.ea k) b
    rw [accept_w] at lanes
    rw [← lanes] at hj ⊢
    exact redraw_lane _ a hj

/-! ### A byte changes after the command that read it (R97) -/

theorem exec_reading {i : Instr} {s t : State} (h : exec i s = .next t) : t.reading = [] := by
  obtain ⟨f, -, ⟨-, rfl⟩ | ⟨-, rfl⟩⟩ := exec_next h
  · exact complete_reading ..
  · exact busAbort_reading ..

/-- Until the host observes BUSY = 0, a byte the command read spoils every register, whichever way it ended. -/
theorem exec_spoils {i : Instr} {s t : State} {a : Word} (h : exec i s = .next t)
    (read : s.reading.any (fun r => r.has a) = true) {g : Marks → Bool} (hg : g (.all s.w) = true) :
    t.spoils a g = true := by
  obtain ⟨f, hf, ⟨-, rfl⟩ | ⟨-, rfl⟩⟩ := exec_next h
  · have body := body_only hf s
    rw [State.spoils, complete_uses]
    exact retire_spoils (body.reading ▸ read) (body.w ▸ hg)
  · rw [State.spoils, busAbort_uses]
    exact retire_spoils read hg

theorem lanesOf_congr {w : Nat} {f g : Nat → Word} (h : ∀ j, j < w → f j = g j) : lanesOf w f = lanesOf w g :=
  List.map_congr_left fun j hj => h j (List.mem_range.1 hj)

/-- Where a byte spoils every register and nothing is pending, its change draws them all. -/
theorem spoil_eq_redraw {s : State} {a : Word} (hp : s.pending = none) (hr : s.reading = [])
    (hit : ∀ g : Marks → Bool, g (.all s.w) = true → s.spoils a g = true) : spoil a s = redraw s := by
  have pos : drawPos s = Config.draw (s.draws + 1) := by rw [drawPos, posLimit, hp]
  have lanes (k : Fin 4) : (lanesOf s.w fun j =>
      if s.spoils a fun m => m.lane k j then Config.draw (s.draws + 2 + k.val * s.w + j) else lane (s.accOf k) j) =
      lanesOf s.w fun j => Config.draw (s.draws + 2 + k.val * s.w + j) :=
    lanesOf_congr fun j hj => if_pos (hit _ (Marks.all_lane hj k))
  rw [spoil, if_pos (hit _ (Marks.all_any _)), if_pos (hit Marks.h rfl), if_pos (hit Marks.pos rfl),
    if_pos (hit Marks.pos rfl), pos, hr, List.map_nil, redraw, hr]
  simp only [lanes]

/-- Settles O47: the command has left its bytes in use by every register. -/
theorem inputChangedBeforeObservationGivesDraws : Obligations.InputChangedBeforeObservationGivesDraws := by
  intro s s1 t w i k b hb hd hs1 hr ht hk reads
  rw [hostAccess_write_cmd_accepts hb hd hr] at hs1
  cases hs1
  have hw : t.w = s.w := by
    obtain ⟨-, -, -, platform, -⟩ := commandsKeepConfigurationAndMemory i _ t ht
    rw [State.w, platform]
    rfl
  have noReading := exec_reading ht
  have noPending := exec_pending ht
  have drawn : storeByte (s.ea k) b t = redraw { t with input := writeCell t.input (s.ea k).toNat b } := by
    rw [storeByte_of_not_reading b (by rw [noReading]; rfl)]
    exact spoil_eq_redraw (s := { t with input := writeCell t.input (s.ea k).toNat b }) noPending noReading
      fun g hg => exec_spoils ht (protects_has hk reads) (hw ▸ hg)
  exact ⟨_, drawn, rfl, fun a j hj => redraw_lane _ a hj⟩

/-! ### A byte outside the buffer of HASH (R200, R210, D19) -/

theorem headPlace_congr {s u : State} {b n i : Nat} (hi : i < b)
    (bytes : ∀ k, k < n * b → u.inputByte k = s.inputByte k) : headPlace u b n i = headPlace s b n i := by
  rw [headPlace, headPlace]
  congr 1
  refine sumTo_congr fun m hm => ?_
  have inside : b * m + i < n * b := by
    calc b * m + i < b * (m + 1) := by rw [Nat.mul_add_one]; omega
      _ ≤ n * b := by rw [Nat.mul_comm n]; exact Nat.mul_le_mul_left b hm
  rw [bytes _ inside]

theorem acc_ext {s u : State} (h : ∀ a, u.accOf a = s.accOf a) : u.acc = s.acc :=
  Vector.ext fun i hi => h ⟨i, hi⟩

theorem variantHead_fullLanes (k : Variant) (s : State) : FullLanes (variantHead k (seedAll s)) := by
  obtain ⟨-, acc, -⟩ := (variantHead_foldsHead k s).tail
  have whole := variantBody_fullLanes k (seedAll_fullLanes s)
  rw [variantBody_eq_tailStep] at whole
  exact whole.congr acc.symm (tailStep_only _).platform.symm

/-- The accumulators HASH leaves depend on W, LEN and the bytes of the buffer alone (R209, R210). -/
theorem variantHead_acc_congr {s u : State} (hw : u.w = s.w) (hlen : u.len = s.len)
    (bytes : ∀ k, k < s.len.toNat → u.inputByte k = s.inputByte k) (k : Variant) :
    (variantHead k (seedAll u)).acc = (variantHead k (seedAll s)).acc := by
  rcases Nat.eq_zero_or_pos k.accumulators with none | some
  · rw [(variantHead_of_no_accumulators none u).2, (variantHead_of_no_accumulators none s).2, seedAll_acc,
      seedAll_acc, hw]
  · obtain ⟨foldsU, holdsU⟩ := variantHead_of_accumulators some u
    obtain ⟨foldsS, holdsS⟩ := variantHead_of_accumulators some s
    refine acc_ext fun q => laneVec_ext ((variantHead_fullLanes k u q).trans (foldsU.only.w.trans hw))
      ((variantHead_fullLanes k s q).trans foldsS.only.w) fun j hj => ?_
    rw [holdsU q j (hw ▸ hj), holdsS q j hj, hw, hlen]
    split
    · rename_i hq
      have place : q.val * s.w + j < k.accumulators * s.w := by
        calc q.val * s.w + j < (q.val + 1) * s.w := by rw [Nat.add_one_mul]; omega
          _ ≤ k.accumulators * s.w := Nat.mul_le_mul_right _ hq
      exact headPlace_congr place fun i hi => bytes i (hi.trans_le (Nat.div_mul_le_self ..))
    · rfl

/-- Bytes whose addresses are not the one that changes are as before. -/
theorem storeByte_inputByte {s : State} {a : Word} {k : Nat} (b : Byte) (h : s.ea k ≠ a) :
    (storeByte a b s).inputByte k = s.inputByte k := by
  rw [State.inputByte, State.inputByte, storeByte_ea, storeByte_byteAt_other b s h]

/-- A drawn POS widens what the pending command may read to the whole buffer, which for HASH it already is. -/
theorem spoil_reading_of_buffer {s : State} (h : s.reading = [⟨s.ea 0, s.len.toNat⟩]) (a : Word) :
    (spoil a s).reading = [⟨s.ea 0, s.len.toNat⟩] := by
  unfold spoil
  split
  · simp only [h, List.map_cons, List.map_nil, ite_self]
  · exact h

/-- A seeding command that has ended leaves only the bytes it read itself in use. -/
theorem exec_uses_of_seed {i : Instr} {s t : State} (seeds : ∀ w m, carry w i m = .none) (h : exec i s = .next t) :
    t.uses = s.reading.map fun r => ⟨r, .all s.w⟩ := by
  obtain ⟨f, hf, ⟨-, rfl⟩ | ⟨-, rfl⟩⟩ := exec_next h
  · have body := body_only hf s
    rw [complete_uses, retire_uses_of_seed seeds, body.reading, body.w]
  · rw [busAbort_uses, retire_uses_of_seed seeds]

section
variable {s : State} {v : BitVec 3} {a : Word} (buffer : s.reading = [⟨s.ea 0, s.len.toNat⟩])
  (outside : ∀ k, k < s.len.toNat → s.ea k ≠ a)
include buffer outside

/-- What a byte outside the buffer of the pending HASH leaves alone of what that HASH uses. -/
theorem storeByte_of_outside (b : Byte) :
    (storeByte a b s).breached = s.breached ∧ (storeByte a b s).reading = s.reading ∧
    (storeByte a b s).inputWords 0 s.len.toNat = s.inputWords 0 s.len.toNat := by
  have notRead : s.reading.any (fun r => r.has a) = false := by
    rw [buffer]
    exact (Bool.or_false _).trans (not_has_of_outside outside)
  refine ⟨?_, ?_, List.map_congr_left fun k hk => ?_⟩
  · rw [storeByte_of_not_reading b notRead, spoil_breached]
  · rw [storeByte_of_not_reading b notRead]
    exact (spoil_reading_of_buffer (s := { s with input := writeCell s.input a.toNat b }) buffer a).trans buffer.symm
  · rw [Nat.zero_add, storeByte_inputByte b (outside k (List.mem_range.1 hk))]

/-- After a HASH that read just its buffer, a byte outside the buffer changes the input memory alone. -/
theorem storeByte_after_hash {t : State} (h : exec (.hash v) s = .next t) (b : Byte) :
    storeByte a b t = { t with input := writeCell t.input a.toNat b } := by
  refine storeByte_of_unused b (by rw [exec_reading h]; rfl) ?_
  rw [State.spoils, exec_uses_of_seed (fun _ _ => rfl) h, buffer]
  simp [not_has_of_outside outside]

/-- HASH performed after a byte outside its buffer has changed: its result on the state before. -/
theorem exec_hash_of_outside {k : Variant} (hk : variantOfField v = some k) (hb : s.breached = false)
    (hadm : s.admitsBytes 0 s.len.toNat = true) (b : Byte) :
    ∃ t, exec (.hash v) (storeByte a b s) = .next t ∧ t.h = polyHash (s.inputWords 0 s.len.toNat) ∧
      t.acc = (variantHead k (seedAll s)).acc ∧ t.pos = s.len ∧
      t.status = { s.status with busy := false, done := true } := by
  obtain ⟨unbroken, -, words⟩ := storeByte_of_outside buffer outside b
  refine ⟨_, exec_hash hk (unbroken.trans hb) (by rw [storeByte_admitsBytes, storeByte_len, hadm]), ?_, ?_,
    storeByte_len .., ?_⟩
  · rw [storeByte_len, words]
  · exact variantHead_acc_congr (storeByte_w ..) (storeByte_len ..) (fun i hi => storeByte_inputByte b (outside i hi)) k
  · simp only [State.finish, storeByte_status]

end

/-- Settles O46: what earlier commands left in use reaches neither the bytes HASH folds nor its seeded registers. -/
theorem hashIgnoresTheInputOfEarlierCommands : Obligations.HashIgnoresTheInputOfEarlierCommands := by
  intro s v a b hb hunbroken hv hadm outside
  obtain ⟨k, hk⟩ := variantOfField_of_le hv
  have buffer : (accept (encode (.hash v)) (.hash v) s).reading = [⟨s.ea 0, s.len.toNat⟩] := rfl
  have admitted := (accept_admitsBytes (encode (.hash v)) (.hash v) s 0 _).trans hadm
  obtain ⟨t, ht, hh, hacc, hpos, hstatus⟩ := exec_hash_of_outside buffer outside hk hunbroken admitted b
  refine ⟨_, t, _, hostAccess_write_hash hb hv, ht, exec_hash hk hunbroken hadm, hh, hh, ?acc, hpos, hstatus,
    fun a' b' outside' => ?after⟩
  case acc =>
    refine hacc.trans (variantHead_acc_congr (accept_w ..) (accept_len ..) (fun i _ => ?_) k)
    exact inputByte_congr (accept_base ..) (accept_input ..) i
  case after =>
    obtain ⟨-, reading, -⟩ := storeByte_of_outside buffer outside b
    refine storeByte_after_hash ?_ ?_ ht b'
    · rw [reading, storeByte_ea, storeByte_len, buffer]
      rfl
    · intro i hi
      rw [storeByte_len] at hi
      rw [storeByte_ea]
      exact outside' i hi

/-! ### A register the host has written (R90) -/

section
variable {s : State} {a : Word} (b : Byte)

theorem storeByte_h_of_not (h : s.spoils a Marks.h = false) : (storeByte a b s).h = s.h := by
  unfold storeByte
  split <;> exact spoil_h_of_not (s := { s with input := writeCell s.input a.toNat b }) h

theorem storeByte_pos_of_not (h : s.spoils a Marks.pos = false) : (storeByte a b s).pos = s.pos := by
  unfold storeByte
  split <;> exact spoil_pos_of_not (s := { s with input := writeCell s.input a.toNat b }) h

theorem storeByte_lane_of_not {k : Fin 4} {j : Nat} (hj : j < s.w) (h : s.spoils a (fun m => m.lane k j) = false) :
    lane ((storeByte a b s).accOf k) j = lane (s.accOf k) j := by
  unfold storeByte
  split <;> exact spoil_lane_of_not (s := { s with input := writeCell s.input a.toNat b }) hj h

end

/-- Settles O48: the write drops the register's mark from every use. -/
theorem writtenRegistersKeepTheirValue : Obligations.WrittenRegistersKeepTheirValue := by
  intro s v a b hb
  refine ⟨⟨_, hostAccess_write_of_ofOffset (r := .h) v (by decide) (by decide) rfl, ?h⟩,
    ⟨_, hostAccess_write_of_ofOffset (r := .pos) v (by decide) (by decide) rfl, ?pos⟩,
    fun k j hj => ⟨_, hostAccess_write_lane v k hj, ?lane⟩⟩
  case h =>
    rw [regWrite_h_of_idle hb]
    exact storeByte_h_of_not b (s.spoils_remark a Marks.dropH_h)
  case pos =>
    rw [regWrite_pos_of_idle hb]
    exact storeByte_pos_of_not b (s.spoils_remark a Marks.dropPos_pos)
  case lane =>
    rw [regWrite_lane_of_idle hb, storeByte_lane_of_not b, State.accOf_setAcc, if_pos rfl, lane_setLane _ _ hj,
      if_pos rfl]
    · exact hj
    · exact s.spoils_remark a (g := fun m => m.lane k j) fun m => m.dropLane_lane k j

end Sys2Proof.Machine
end

section
/-! HASH as a program of separate commands (spec/43_hash.md R212): the commands of each variant's program run the bodies
that the variant's own loop runs, on a state that differs in STATUS, PENDING and the record of the input alone. -/

namespace Sys2Proof.Machine

/-! ### What no body looks at -/

/-- `s` with STATUS, PENDING and the record of the input in use taken from `t`. -/
def State.bookedAs (s t : State) : State :=
  { s with status := t.status, pending := t.pending, reading := t.reading, uses := t.uses }

/-- `t` is `u` but for STATUS, PENDING and the record of the input in use. -/
def Agrees (u t : State) : Prop := t = u.bookedAs t

theorem Agrees.base {u t : State} (h : Agrees u t) : t.base = u.base := by rw [h]; rfl

theorem Agrees.platform {u t : State} (h : Agrees u t) : t.platform = u.platform := by rw [h]; rfl

theorem Agrees.breached {u t : State} (h : Agrees u t) : t.breached = u.breached := by rw [h]; rfl

theorem Agrees.readsOf {u t : State} (h : Agrees u t) (i : Instr) : readsOf t i = readsOf u i := by
  rw [h]
  cases i <;> rfl

/-- The body neither reads nor writes STATUS, PENDING and the record of the input in use. -/
def IgnoresBooks (f : State → State) : Prop := ∀ u t : State, f (u.bookedAs t) = (f u).bookedAs t

theorem seedAll_ignoresBooks : IgnoresBooks seedAll := fun _ _ => rfl

theorem sfoldStep_ignoresBooks : IgnoresBooks sfoldStep := fun _ _ => rfl

theorem sfold8Step_ignoresBooks : IgnoresBooks sfold8Step := fun _ _ => rfl

theorem vrpiStep_ignoresBooks : IgnoresBooks vrpiStep := fun _ _ => rfl

theorem vmacStep_ignoresBooks (a o : Fin 4) (k : StepSel) : IgnoresBooks (vmacStep a o k) := fun _ _ => rfl

theorem hredStep_ignoresBooks (m : BitVec 4) : IgnoresBooks (hredStep m) := fun _ _ => rfl

theorem loopFits_ignoresBooks {f : State → State} (hf : IgnoresBooks f) (n : Nat) : IgnoresBooks (loopFits n f) := by
  intro u t
  suffices run : ∀ fuel (u : State), whileFits n f fuel (u.bookedAs t) = (whileFits n f fuel u).bookedAs t from run _ u
  intro fuel
  induction fuel with
  | zero => exact fun _ => rfl
  | succ fuel ih =>
    intro u
    rw [whileFits_succ, whileFits_succ, hf, ih, apply_ite (State.bookedAs · t)]
    rfl

/-! ### Rows of commands -/

/-- From every state that agrees with `u`, the commands `l` lead to one that agrees with `v`. -/
def Runs (l : List Instr) (u v : State) : Prop :=
  ∀ t, Agrees u t → ∃ t', runCommands l t = .next t' ∧ Agrees v t'

theorem runCommands_append {l : List Instr} {s t : State} (h : runCommands l s = .next t) (l' : List Instr) :
    runCommands (l ++ l') s = runCommands l' t := by
  induction l generalizing s with
  | nil =>
    cases h
    rfl
  | cons i l ih =>
    rw [runCommands] at h
    cases hx : exec i s with
    | next u =>
      rw [hx] at h
      rw [List.cons_append, runCommands_cons hx, ih h]
    | fault r => rw [hx] at h; cases h
    | refused r => rw [hx] at h; cases h

theorem Runs.nil (u : State) : Runs [] u u := fun t ht => ⟨t, rfl, ht⟩

theorem Runs.trans {l l' : List Instr} {u v x : State} (h : Runs l u v) (h' : Runs l' v x) : Runs (l ++ l') u x := by
  intro t ht
  obtain ⟨t1, run, agrees⟩ := h t ht
  obtain ⟨t2, run', agrees'⟩ := h' t1 agrees
  exact ⟨t2, (runCommands_append run l').trans run', agrees'⟩

section
variable {s : State} (hb : s.breached = false) (hadm : s.admitsBytes 0 s.len.toNat = true)
include hb hadm

/-- A command inside its range runs its body. -/
theorem runs_command {i : Instr} {f : State → State} (hf : bodyOf i = some f) (ignores : IgnoresBooks f) {u : State}
    (only : OnlyDatapath s u) (hr : rangeOk u i = true) : Runs [i] u (f u) := by
  intro t ht
  have admitted : u.admitsBytes 0 u.len.toNat = true := by
    rw [only.len]
    exact (admitsBytes_congr only.base only.platform 0 _).trans hadm
  have admitted' : t.admitsBytes (readsOf t i).1 (readsOf t i).2 = true := by
    rw [ht.readsOf, admitsBytes_congr ht.base ht.platform]
    exact reads_admitted hr admitted
  have unbroken : t.breached = false := ht.breached.trans (only.breached.trans hb)
  have body : f t = (f u).bookedAs t := by
    conv_lhs => rw [ht]
    exact ignores u t
  refine ⟨_, runCommands_cons (exec_result hf admitted' unbroken) [], ?_⟩
  rw [Agrees, body]
  conv_rhs => rw [body_only hf u]
  rw [ht]
  rfl

end

/-! ### Rows that consume input -/

/-- Inside the buffer of `s` the commands `l` consume `n` bytes and run `f`. -/
def Performs (s : State) (n : Nat) (l : List Instr) (f : State → State) : Prop :=
  ∀ u, OnlyDatapath s u → u.pos.toNat + n ≤ u.len.toNat →
    OnlyDatapath s (f u) ∧ (f u).pos.toNat = u.pos.toNat + n ∧ Runs l u (f u)

namespace Performs

variable {s : State} {m n : Nat} {l l' : List Instr} {f g : State → State}

theorem trans (hf : Performs s m l f) (hg : Performs s n l' g) : Performs s (m + n) (l ++ l') (g ∘ f) := by
  intro u ho fits
  obtain ⟨ho1, pos1, run1⟩ := hf u ho (by omega)
  obtain ⟨ho2, pos2, run2⟩ := hg (f u) ho1 (by rw [ho1.len, ← ho.len]; omega)
  exact ⟨ho2, by rw [Function.comp_apply, pos2, pos1, Nat.add_assoc], run1.trans run2⟩

/-- `k` rows one after another run `f` `k` times. -/
theorem replicate (hf : Performs s n l f) (k : Nat) : Performs s (k * n) (List.replicate k l).flatten f^[k] := by
  induction k with
  | zero => exact fun u ho _ => ⟨ho, by simp, .nil u⟩
  | succ k ih =>
    rw [List.replicate_succ, List.flatten_cons, Function.iterate_succ, Nat.add_one_mul, Nat.add_comm]
    exact hf.trans ih

/-- The loop of a variant is its block of commands once for every full block of the buffer (R208). -/
theorem loop (block : Performs s n l f) (only : ∀ t, OnlyDatapath t (f t)) (hn : 0 < n) :
    OnlyDatapath s (loopFits n f (seedAll s)) ∧
    Runs (List.replicate (s.len.toNat / n) l).flatten (seedAll s) (loopFits n f (seedAll s)) := by
  have iterated : loopFits n f (seedAll s) = f^[s.len.toNat / n] (seedAll s) :=
    loopFits_eq_iterate (P := OnlyDatapath s) hn (fun t ho => ho.trans (only t))
      (fun t ho fits => ⟨(block t ho fits).2.1, (only t).len⟩) (seedAll_only s)
  have fits : (seedAll s).pos.toNat + s.len.toNat / n * n ≤ (seedAll s).len.toNat := by
    simpa using Nat.div_mul_le_self s.len.toNat n
  obtain ⟨ho, -, run⟩ := block.replicate _ (seedAll s) (seedAll_only s) fits
  rw [iterated]
  exact ⟨ho, run⟩

end Performs

/-! ### The programs of R212 -/

/-- The program of a variant between INIT and TAIL. -/
def headScript (w len : Nat) : Variant → List Instr
  | .scalar => []
  | .unrolled => (List.replicate (len / 8) [.sfold8]).flatten
  | .rpi => (List.replicate (len / w) [.vrpi]).flatten
  | .deferred => (List.replicate (len / w) [.vmac 0 3 0]).flatten ++ [.hred 0b0001]
  | .dual => (List.replicate (len / (2 * w)) [.vmac 0 2 1, .vmac 1 3 1]).flatten ++ [.hred 0b0011]
  | .quad =>
    (List.replicate (len / (4 * w)) [.vmac 0 0 2, .vmac 1 1 2, .vmac 2 2 2, .vmac 3 3 2]).flatten ++ [.hred 0b1111]

theorem scriptOf_eq (w len : Nat) (k : Variant) : scriptOf w len k = [.init] ++ (headScript w len k ++ [.tail]) := by
  cases k <;> simp [scriptOf, headScript]

section
variable {s : State} (hb : s.breached = false) (hadm : s.admitsBytes 0 s.len.toNat = true)
include hb hadm

theorem performs_sfold8 : Performs s 8 [.sfold8] sfold8Step := fun u ho fits =>
  ⟨ho.trans (sfold8Step_only u), (sfold8Step_consumes u fits).1,
    runs_command hb hadm rfl sfold8Step_ignoresBooks ho (decide_eq_true fits)⟩

theorem performs_vrpi : Performs s s.w [.vrpi] vrpiStep := fun u ho fits => by
  rw [← ho.w] at fits ⊢
  exact ⟨ho.trans (vrpiStep_only u), (vrpiStep_consumes fits).1,
    runs_command hb hadm rfl vrpiStep_ignoresBooks ho (decide_eq_true fits)⟩

theorem performs_vmac (a o st : BitVec 2) {k : StepSel} (hk : stepOfField st = some k) :
    Performs s s.w [.vmac a o st] (vmacStep (indexOfField a) (indexOfField o) k) := fun u ho fits => by
  rw [← ho.w] at fits ⊢
  exact ⟨ho.trans (vmacStep_only ..), (vmacStep_consumes _ _ k fits).1,
    runs_command hb hadm (bodyOf_vmac a o hk) (vmacStep_ignoresBooks _ _ k) ho (decide_eq_true fits)⟩

theorem performs_dualBlock : Performs s (2 * s.w) [.vmac 0 2 1, .vmac 1 3 1] dualBlock := by
  rw [Nat.two_mul]
  exact (performs_vmac hb hadm 0 2 1 rfl).trans (performs_vmac hb hadm 1 3 1 rfl)

theorem performs_quadBlock :
    Performs s (4 * s.w) [.vmac 0 0 2, .vmac 1 1 2, .vmac 2 2 2, .vmac 3 3 2] quadBlock := by
  rw [show 4 * s.w = s.w + s.w + s.w + s.w by omega]
  exact (((performs_vmac hb hadm 0 0 2 rfl).trans (performs_vmac hb hadm 1 1 2 rfl)).trans
    (performs_vmac hb hadm 2 2 2 rfl)).trans (performs_vmac hb hadm 3 3 2 rfl)

theorem runs_hred (m : BitVec 4) {u : State} (ho : OnlyDatapath s u) : Runs [.hred m] u (hredStep m u) :=
  runs_command hb hadm rfl (hredStep_ignoresBooks m) ho rfl

/-- The program's head runs the variant's head (R202-R206). -/
theorem runs_headScript (k : Variant) :
    Runs (headScript s.w s.len.toNat k) (seedAll s) (variantHead k (seedAll s)) := by
  cases k with
  | scalar => exact .nil _
  | unrolled => exact ((performs_sfold8 hb hadm).loop sfold8Step_only (by decide)).2
  | rpi => exact ((performs_vrpi hb hadm).loop vrpiStep_only s.w_pos).2
  | deferred =>
    obtain ⟨ho, run⟩ := (performs_vmac hb hadm 0 3 0 rfl).loop (vmacStep_only _ _ .one) s.w_pos
    exact run.trans (runs_hred hb hadm _ ho)
  | dual =>
    obtain ⟨ho, run⟩ := (performs_dualBlock hb hadm).loop dualBlock_only (Nat.mul_pos (by decide) s.w_pos)
    exact run.trans (runs_hred hb hadm _ ho)
  | quad =>
    obtain ⟨ho, run⟩ := (performs_quadBlock hb hadm).loop quadBlock_only (Nat.mul_pos (by decide) s.w_pos)
    exact run.trans (runs_hred hb hadm _ ho)

/-- The whole program runs HASH's body. -/
theorem runs_scriptOf (k : Variant) : Runs (scriptOf s.w s.len.toNat k) s (hashStep k s) := by
  have head := variantHead_foldsHead k s
  have inRange : rangeOk (variantHead k (seedAll s)) .tail = true := decide_eq_true (head.only.len ▸ head.fits)
  rw [scriptOf_eq, hashStep, variantBody_eq_tailStep]
  exact (runs_command hb hadm rfl seedAll_ignoresBooks (.refl s) rfl).trans ((runs_headScript hb hadm k).trans
    (runs_command hb hadm rfl (loopFits_ignoresBooks sfoldStep_ignoresBooks 1) head.only inRange))

end

/-- Settles O22: HASH and its program both run the variant's body. -/
theorem hashIsItsScriptOfCommands : Obligations.HashIsItsScriptOfCommands := by
  intro s v k hk hb hadm
  have body : bodyOf (.hash v) = some (hashStep k) := by rw [bodyOf, hk]; rfl
  obtain ⟨t', run, agrees⟩ := runs_scriptOf hb hadm k s rfl
  refine ⟨_, t', exec_result body hadm hb, run, ?_⟩
  rw [agrees]
  exact ⟨rfl, rfl, rfl⟩

end Sys2Proof.Machine
end
